-- ==== Sys2Proof/Word.lean ====
section
/-! DEFINITION. The machine word, the address range and the output byte (spec/00_scope.md R2, R3; spec/10_state.md R17). -/

namespace Sys2Proof

/-- A machine word of `w` bits: a memory cell, an address, the program counter, a scratch register (R2, R11 to R13). -/
abbrev Word (w : Nat) := BitVec w

/-- A byte of the output stream (R17). -/
abbrev Byte := BitVec 8

/-- `MEMSIZE`, the number of words of memory: `2^W` in both configurations (R3, R10). -/
abbrev memSize (w : Nat) : Nat := 2 ^ w

end Sys2Proof
end

