-- ==== Sys2Proof/Config.lean ====
section
/-! DEFINITION. What is fixed when the hardware is built (spec/00_scope.md R1, R2) and the free values of
spec/93_implementation_defined.md. -/

namespace Sys2Proof

/-- The two configurations that exist (R1). -/
inductive Cfg where
  | cfg16
  | cfg8
  deriving DecidableEq, Repr

/-- `W`, the width of a machine word (R2). -/
def Cfg.width : Cfg → Nat
  | .cfg16 => 16
  | .cfg8 => 8

/-- The least `argc` an opcode word can say (R2, R55). -/
def Cfg.argcMin : Cfg → Nat
  | .cfg16 => 0
  | .cfg8 => 1

/-- The greatest `argc` an opcode word can say (R2, R55). -/
def Cfg.argcMax : Cfg → Nat
  | .cfg16 => 3
  | .cfg8 => 2

/-- `UNSPEC_W` (R12, R13; spec/93_implementation_defined.md U1, U2, U3, U8): the free `w`-bit value of draw number
`n`. It has no body, so no proof can learn a value of it, and every statement holds whatever it is. Each draw of a
step has a number of its own, taken from the counter `draws` of the state (notes/assumptions/4.md). -/
opaque Config.freeWord (w : Nat) (n : Nat) : Word w

end Sys2Proof
end

