-- ==== Sys2Proof/Machine/State.lean ====
section
/-! DEFINITION. The state of the machine as plain data, its reset, and the reasons a step can stop
(spec/10_state.md R10 to R23, spec/60_exceptions.md R110 to R113). -/

namespace Sys2Proof.Machine

/-- Memory (R10, R30): the words that are not zero, by rising address. An address that is not listed reads as zero,
which is what memory holds where nothing was written (R10, R20). -/
abbrev Memory (w : Nat) := List (Nat × Word w)

/-- The canonical form: addresses strictly rising and inside `[0, MEMSIZE)`, and no entry equal to what an unlisted
address reads as. Two memories in this form that read alike are equal data. -/
abbrev Memory.wf {w : Nat} (m : Memory w) : Prop :=
  m.Pairwise (fun c d => c.1 < d.1) ∧ ∀ c ∈ m, c.1 < memSize w ∧ c.2 ≠ 0#w

/-- The four kinds of address-space overrun (R110). `MEMSIZE = 2^W` leaves `pcAdvance` the only one that can be
raised (R111); the others complete the record's format. -/
inductive OverrunKind where
  | pcAdvance
  | jumpTarget
  | deref
  | writeBack
  deriving DecidableEq, Repr

/-- The code of a kind in the fault record (R110; the `fault_kind` of R21). -/
def OverrunKind.code : OverrunKind → BitVec 3
  | .pcAdvance => 1#3
  | .jumpTarget => 2#3
  | .deref => 3#3
  | .writeBack => 4#3

/-- What the fault record holds: the kind and the offending address, one bit wider than a word (R18, R110). -/
structure Overrun (w : Nat) where
  kind : OverrunKind
  addr : BitVec (w + 1)
  deriving DecidableEq, Repr

/-- One entry of the event history (R32, R33, R83). -/
inductive Event (w : Nat) where
  /-- the word `v` was read at address `a` -/
  | read (a v : Word w)
  /-- the byte `b` was emitted -/
  | emit (b : Byte)
  /-- the word `v` was written at address `a` -/
  | write (a v : Word w)
  deriving DecidableEq, Repr

/-- The state of the machine with words of `w` bits: one design for both configurations (R1). -/
structure Mach (w : Nat) where
  /-- the memory `M` (R10) -/
  mem : Memory w
  /-- the program counter (R11) -/
  pc : Word w
  /-- the input scratch register `in[0]` (R12) -/
  in0 : Word w
  /-- the input scratch register `in[1]` (R12) -/
  in1 : Word w
  /-- the input scratch register `in[2]` (R12) -/
  in2 : Word w
  /-- the output scratch register `out` (R13) -/
  out : Word w
  /-- the halted bit (R14) -/
  halted : Bool
  /-- the sticky fault record (R18) -/
  fault : Option (Overrun w)
  /-- the output stream `OUT`, oldest byte first (R17) -/
  outStream : List Byte
  /-- the model's own: how many free values have been drawn (notes/assumptions/4.md) -/
  draws : Nat
  /-- the model's own: the event history, oldest first (R83; notes/assumptions/6.md) -/
  events : List (Event w)
  deriving DecidableEq, Repr

/-- The machine of one of the two configurations. Which one is fixed when the hardware is built (R1, R23). -/
inductive Chip where
  | cfg16 (m : Mach 16)
  | cfg8 (m : Mach 8)
  deriving DecidableEq, Repr

/-- The state of the machine. -/
structure State where
  chip : Chip
  deriving DecidableEq, Repr

/-- The state of a `CFG16` machine. -/
abbrev State.of16 (m : Mach 16) : State := ⟨.cfg16 m⟩

/-- The state of a `CFG8` machine. -/
abbrev State.of8 (m : Mach 8) : State := ⟨.cfg8 m⟩

/-- The configuration of the machine. -/
def State.cfg (s : State) : Cfg :=
  match s.chip with
  | .cfg16 _ => .cfg16
  | .cfg8 _ => .cfg8

/-- The three states of the machine (R19). -/
inductive Status where
  | running
  | halted
  | faulted
  deriving DecidableEq, Repr

/-- Which of the three states the machine is in (R19). -/
def Mach.status {w : Nat} (m : Mach w) : Status :=
  if m.fault.isSome then .faulted else if m.halted then .halted else .running

/-- The reasons a step can stop. -/
inductive Fault where
  /-- AddressOverrun (R110, R112). Raised by the fetch of a word at the last address, whose advance of `pc` would
  reach `MEMSIZE` (R73). `addr` is the offending address and `faulted` the Faulted state, in which the record is set
  and every later step request changes nothing. Safe: the spec itself ends the run here. -/
  | addressOverrun (kind : OverrunKind) (addr : Nat) (faulted : State)
  deriving DecidableEq, Repr

/-- The reasons an instruction is given no meaning. -/
inductive Refusal where
  /-- An instruction without a meaning in this model, rejected by its mnemonic in `exec`. No arm of `exec` is left
  so. Safe: nothing is claimed of it. -/
  | notModelled (mnemonic : String)
  /-- An instruction of one configuration given to the machine of the other by a direct call of `exec`. Raised by
  every meaning; no step raises it, since each machine decodes its own instructions. Safe: nothing is claimed of
  it. -/
  | wrongConfiguration
  deriving DecidableEq, Repr

/-- The machine after reset with entry point `entry` and nothing loaded (R20, R130). The scratch registers have no
reset value in the spec; 0 is the model's choice, and no step can read it (notes/assumptions/3.md). -/
def Mach.reset {w : Nat} (entry : Word w) : Mach w where
  mem := []
  pc := entry
  in0 := 0#w
  in1 := 0#w
  in2 := 0#w
  out := 0#w
  halted := false
  fault := none
  outStream := []
  draws := 0
  events := []

/-- The machine right after reset: zero-filled memory, nothing loaded. The spec leaves the configuration, `ENTRY`
and `IMAGE` to whoever builds and loads the machine (R4, R23); this state takes `CFG16` and `ENTRY = 0`
(notes/assumptions/1.md and 2.md), and `State.boot16` and `State.boot8` take them as given. -/
def State.reset : State := .of16 (Mach.reset 0#16)

end Sys2Proof.Machine
end

