-- ==== Sys2Proof/Machine/Ops.lean ====
section
/-! DEFINITION. The named operations over memory and registers, the fetch of an instruction word, and the one
exception (spec/20_memory.md R32, R33; spec/40_step_datapath.md R73; spec/60_exceptions.md R112, R113). -/

namespace Sys2Proof.Machine

variable {w : Nat}

/-! ### Memory -/

/-- The word at an address: the listed one, or 0 (R10, R32). -/
def Memory.read : Memory w → Nat → Word w
  | [], _ => 0#w
  | (b, u) :: rest, a => if b = a then u else Memory.read rest a

/-- Memory with the word at `a` replaced and no other changed (R33). A zero word is not listed, which keeps the
canonical form. -/
def Memory.write : Memory w → Nat → Word w → Memory w
  | [], a, v => if v = 0#w then [] else [(a, v)]
  | (b, u) :: rest, a, v =>
    if a < b then (if v = 0#w then (b, u) :: rest else (a, v) :: (b, u) :: rest)
    else if a = b then (if v = 0#w then rest else (a, v) :: rest)
    else (b, u) :: Memory.write rest a v

/-! ### One update per piece of state -/

/-- `pc <- v` -/
def Mach.setPc (m : Mach w) (v : Word w) : Mach w := { m with pc := v }

/-- `in[0] <- v` -/
def Mach.setIn0 (m : Mach w) (v : Word w) : Mach w := { m with in0 := v }

/-- `in[1] <- v` -/
def Mach.setIn1 (m : Mach w) (v : Word w) : Mach w := { m with in1 := v }

/-- `in[2] <- v` -/
def Mach.setIn2 (m : Mach w) (v : Word w) : Mach w := { m with in2 := v }

/-- `out <- v` -/
def Mach.setOut (m : Mach w) (v : Word w) : Mach w := { m with out := v }

/-- `halted <- 1` (R14: nothing but reset clears it) -/
def Mach.setHalted (m : Mach w) : Mach w := { m with halted := true }

/-- One more entry of the event history (R83). -/
def Mach.log (m : Mach w) (e : Event w) : Mach w := { m with events := m.events ++ [e] }

/-- The word the memory holds at `a`. Every `W`-bit value is an address below `MEMSIZE` (R3, R30), so the range
tests of R32 and R33 hold by the type of `a`. -/
def Mach.wordAt (m : Mach w) (a : Word w) : Word w := m.mem.read a.toNat

/-! ### The access primitives -/

/-- `MemRead(a, 1)`: the word at `a`, and the machine with the read recorded (R32). -/
def Mach.memRead (m : Mach w) (a : Word w) : Word w × Mach w := (m.wordAt a, m.log (.read a (m.wordAt a)))

/-- `MemWrite(a, 1, v)` (R33). -/
def Mach.memWrite (m : Mach w) (a v : Word w) : Mach w :=
  { m with mem := m.mem.write a.toNat v, events := m.events ++ [.write a v] }

/-- `Emit(b)`: one more byte of the output stream (R17, R101). -/
def Mach.emit (m : Mach w) (b : Byte) : Mach w :=
  { m with outStream := m.outStream ++ [b], events := m.events ++ [.emit b] }

/-! ### Free values -/

/-- The start of a step: the scratch registers take four fresh free values, since none survives a step (R12, R13,
R70). -/
def Mach.beginStep (m : Mach w) : Mach w :=
  { m with
    in0 := Config.freeWord w m.draws
    in1 := Config.freeWord w (m.draws + 1)
    in2 := Config.freeWord w (m.draws + 2)
    out := Config.freeWord w (m.draws + 3)
    draws := m.draws + 4 }

/-! ### Taking the one exception -/

/-- What an operation of a step answers: a value, or the fault record with the Faulted state. -/
abbrev Run (w : Nat) (α : Type) := Except (Overrun w × Mach w) α

/-- `raise AddressOverrun(kind, addr)` (R112, R113). The record is set; memory, `OUT` and `halted` are as they were.
The spec leaves `pc` and the scratch registers open, so they take free values. Nothing is saved and no handler runs,
and there is no return from it: only reset leaves the Faulted state (R119). -/
def Mach.raiseOverrun (m : Mach w) (kind : OverrunKind) (addr : BitVec (w + 1)) : Overrun w × Mach w :=
  (⟨kind, addr⟩,
    { m with
      pc := Config.freeWord w m.draws
      in0 := Config.freeWord w (m.draws + 1)
      in1 := Config.freeWord w (m.draws + 2)
      in2 := Config.freeWord w (m.draws + 3)
      out := Config.freeWord w (m.draws + 4)
      draws := m.draws + 5
      fault := some ⟨kind, addr⟩ })

/-- How a fault stands in the outcome of a step: distinct from a next state, and carrying the Faulted state (R112). -/
def overrunOutcome (wrap : Mach w → State) (e : Overrun w × Mach w) : Host.Outcome State Fault Refusal :=
  .fault (.addressOverrun e.1.kind e.1.addr.toNat (wrap e.2))

/-! ### Fetching an instruction word -/

/-- `AdvancePc()`: `pc + 1` as an integer; at the last address the carry out is the fault (R73). -/
def Mach.advancePc (m : Mach w) : Run w (Mach w) :=
  if m.pc.toNat + 1 < memSize w then .ok (m.setPc (m.pc + 1#w))
  else .error (m.raiseOverrun .pcAdvance (BitVec.ofNat (w + 1) (m.pc.toNat + 1)))

/-- `Fetch()`: the word at `pc`, and the machine with `pc` advanced past it. The read comes first, so it is in the
event history even where the advance faults (R73, R83). -/
def Mach.fetch (m : Mach w) : Run w (Word w × Mach w) :=
  match (m.memRead m.pc).2.advancePc with
  | .ok m' => .ok ((m.memRead m.pc).1, m')
  | .error e => .error e

/-- Action 1 of a step, with what comes before it: fresh scratch registers, then the opcode word (R70, R72). -/
def Mach.fetchOpcode (m : Mach w) : Run w (Word w × Mach w) := m.beginStep.fetch

/-! ### Placing an instruction for the next step -/

/-- Memory with `words` at the consecutive addresses from `a`, as far as there are addresses. -/
def Memory.place : Memory w → Nat → List (Word w) → Memory w
  | m, _, [] => m
  | m, a, v :: vs => if a < memSize w then Memory.place (m.write a v) (a + 1) vs else m

/-- A Running machine whose next step fetches `words`, as a load and a reset would leave it. -/
def Mach.placeInstr (m : Mach w) (words : List (Word w)) : Mach w :=
  { m with mem := m.mem.place m.pc.toNat words, halted := false, fault := none }

end Sys2Proof.Machine
end

