-- ==== Sys2Proof/Machine/Boot.lean ====
section
/-! DEFINITION. Reset and load (spec/70_reset_and_hazards.md R130, R138; spec/00_scope.md R4), and the machine of one
configuration taken out of a state. -/

namespace Sys2Proof.Machine

variable {w : Nat}

/-- The loader's writes to memory, in order (R130, step 2). -/
def Memory.load (m : Memory w) (image : List (Word w × Word w)) : Memory w :=
  image.foldl (fun mem cell => mem.write cell.1.toNat cell.2) m

/-- `IMAGE[a]` of R20 and R39: the last word the loader wrote at `a`, 0 where it wrote nothing. -/
def imageWord (image : List (Word w × Word w)) (a : Word w) : Word w :=
  match image.reverse.find? (fun c => c.1 = a) with
  | some c => c.2
  | none => 0#w

/-- Reset and load (R130): memory zero-filled, then the loader's writes, then `pc = ENTRY`; the rest as R20 says. -/
def Mach.boot (entry : Word w) (image : List (Word w × Word w)) : Mach w :=
  { Mach.reset entry with mem := Memory.load [] image }

/-- The `CFG16` machine after reset and load. `ENTRY` and `IMAGE` are the model's arguments (R4). -/
def State.boot16 (entry : Word 16) (image : List (Word 16 × Word 16)) : State := .of16 (Mach.boot entry image)

/-- The `CFG8` machine after reset and load. -/
def State.boot8 (entry : Word 8) (image : List (Word 8 × Word 8)) : State := .of8 (Mach.boot entry image)

/-- The `CFG16` machine of a state; a freshly reset one where the state is of the other configuration. -/
def State.mach16 (s : State) : Mach 16 :=
  match s.chip with
  | .cfg16 m => m
  | .cfg8 _ => Mach.reset 0#16

/-- The `CFG8` machine of a state; a freshly reset one where the state is of the other configuration. -/
def State.mach8 (s : State) : Mach 8 :=
  match s.chip with
  | .cfg8 m => m
  | .cfg16 _ => Mach.reset 0#8

/-- A state whose next step fetches the `CFG16` opcode word `iw`, followed by four zero words. -/
def State.placeWord16 (s : State) (iw : Word 16) : State :=
  .of16 (s.mach16.placeInstr [iw, 0#16, 0#16, 0#16, 0#16])

/-- A state whose next step fetches the `CFG8` opcode word `iw`, followed by three zero words. -/
def State.placeWord8 (s : State) (iw : Word 8) : State :=
  .of8 (s.mach8.placeInstr [iw, 0#8, 0#8, 0#8])

end Sys2Proof.Machine
end

