-- ==== Sys2Proof/Syntax.lean ====
section
/-! DEFINITION. The instructions: one constructor for each of the 20 rows of spec/opcode_table.json. -/

namespace Sys2Proof

/-- The fields every opcode word holds besides the opcode (spec/30_encoding.md R51, R52). `argc` is the argument
count itself, which is at most the number of input registers (R55). -/
structure Fields where
  /-- operand 0 is dereferenced through memory -/
  readAddr0 : Bool
  /-- operand 1 is dereferenced through memory -/
  readAddr1 : Bool
  /-- a write-address word follows, and the result is stored through it -/
  writeAddr : Bool
  /-- the number of argument words -/
  argc : Fin 4
  deriving DecidableEq, Repr

/-- An instruction, as its opcode word says it (R53). The write-address word and the argument words are plain words
(R50) that the step fetches from memory while it runs the instruction. An unassigned row also carries the bits of
the opcode that the row leaves free, so `unassigned16At8 x f` is opcode `8 + x`. -/
inductive Instr where
  | none16 (f : Fields)
  | copy16 (f : Fields)
  | add16 (f : Fields)
  | jumpIfZero16 (f : Fields)
  | poke16 (f : Fields)
  | halt16 (f : Fields)
  | unassigned16At6 (x : BitVec 1) (f : Fields)
  | unassigned16At8 (x : BitVec 3) (f : Fields)
  | unassigned16At16 (x : BitVec 4) (f : Fields)
  | unassigned16At32 (x : BitVec 5) (f : Fields)
  | unassigned16At64 (x : BitVec 6) (f : Fields)
  | unassigned16At128 (x : BitVec 7) (f : Fields)
  | none8 (f : Fields)
  | copy8 (f : Fields)
  | add8 (f : Fields)
  | jumpIfZero8 (f : Fields)
  | poke8 (f : Fields)
  | halt8 (f : Fields)
  | unassigned8At6 (x : BitVec 1) (f : Fields)
  | unassigned8At8 (x : BitVec 3) (f : Fields)
  deriving DecidableEq, Repr

/-- The configuration whose instruction set the row belongs to. -/
def Instr.cfg : Instr → Cfg
  | .none16 _ | .copy16 _ | .add16 _ | .jumpIfZero16 _ | .poke16 _ | .halt16 _ => .cfg16
  | .unassigned16At6 _ _ | .unassigned16At8 _ _ | .unassigned16At16 _ _ => .cfg16
  | .unassigned16At32 _ _ | .unassigned16At64 _ _ | .unassigned16At128 _ _ => .cfg16
  | .none8 _ | .copy8 _ | .add8 _ | .jumpIfZero8 _ | .poke8 _ | .halt8 _ => .cfg8
  | .unassigned8At6 _ _ | .unassigned8At8 _ _ => .cfg8

/-- The flags and the argument count of the instruction. -/
def Instr.fields : Instr → Fields
  | .none16 f | .copy16 f | .add16 f | .jumpIfZero16 f | .poke16 f | .halt16 f => f
  | .unassigned16At6 _ f | .unassigned16At8 _ f | .unassigned16At16 _ f => f
  | .unassigned16At32 _ f | .unassigned16At64 _ f | .unassigned16At128 _ f => f
  | .none8 f | .copy8 f | .add8 f | .jumpIfZero8 f | .poke8 f | .halt8 f => f
  | .unassigned8At6 _ f | .unassigned8At8 _ f => f

end Sys2Proof
end

