-- ==== Sys2Proof/WellFormed.lean ====
section
/-! DEFINITION. The legal field ranges of an instruction (spec/30_encoding.md R55, R63). -/

namespace Sys2Proof

/-- `argc` is one the configuration's field can say (R55). -/
abbrev Fields.ArgcLegal (c : Cfg) (f : Fields) : Prop :=
  c.argcMin ≤ f.argc.val ∧ f.argc.val ≤ c.argcMax

/-- The instruction is one of configuration `c`, with its fields in the legal ranges. Every combination of flags is
legal (R67), and an opcode is legal by its type. -/
abbrev Instr.WellFormed (c : Cfg) (i : Instr) : Prop :=
  i.cfg = c ∧ i.fields.ArgcLegal c

end Sys2Proof
end

