-- ==== Sys2Proof/Decode.lean ====
section
/-! DEFINITION. The decoder and the encoder (spec/30_encoding.md R50 to R64). Decoding never fails (R53, R62). -/

namespace Sys2Proof

/-! ### The decoder -/

/-- The opcode field of a `CFG16` opcode word: bits 7:0 (R51). -/
def opcodeField16 (w : Word 16) : BitVec 8 := w.extractLsb' 0 8

/-- The flags and `argc` of a `CFG16` opcode word: bits 8, 9, 10 and 12:11; bits 15:13 are not looked at (R51,
R54). -/
def fields16 (w : Word 16) : Fields where
  readAddr0 := w.getLsbD 8
  readAddr1 := w.getLsbD 9
  writeAddr := w.getLsbD 10
  argc := ⟨(w.extractLsb' 11 2).toNat, (w.extractLsb' 11 2).isLt⟩

/-- The opcode field of a `CFG8` opcode word: bits 3:0 (R52). -/
def opcodeField8 (w : Word 8) : BitVec 4 := w.extractLsb' 0 4

/-- The flags and `argc` of a `CFG8` opcode word: bits 4, 5, 6, and bit 7, which holds `argc - 1` (R52). -/
def fields8 (w : Word 8) : Fields where
  readAddr0 := w.getLsbD 4
  readAddr1 := w.getLsbD 5
  writeAddr := w.getLsbD 6
  argc := ⟨(w.extractLsb' 7 1).toNat + 1, by have := (w.extractLsb' 7 1).isLt; omega⟩

/-- The row of the opcode map a `CFG16` opcode selects (R60, R64): its fixed bits are tested, its free bits kept. -/
def select16 (op : BitVec 8) (f : Fields) : Instr :=
  if op = 0#8 then .none16 f
  else if op = 1#8 then .copy16 f
  else if op = 2#8 then .add16 f
  else if op = 3#8 then .jumpIfZero16 f
  else if op = 4#8 then .poke16 f
  else if op = 5#8 then .halt16 f
  else if op.extractLsb' 1 7 = 3#7 then .unassigned16At6 (op.extractLsb' 0 1) f
  else if op.extractLsb' 3 5 = 1#5 then .unassigned16At8 (op.extractLsb' 0 3) f
  else if op.extractLsb' 4 4 = 1#4 then .unassigned16At16 (op.extractLsb' 0 4) f
  else if op.extractLsb' 5 3 = 1#3 then .unassigned16At32 (op.extractLsb' 0 5) f
  else if op.extractLsb' 6 2 = 1#2 then .unassigned16At64 (op.extractLsb' 0 6) f
  else .unassigned16At128 (op.extractLsb' 0 7) f

/-- The row of the opcode map a `CFG8` opcode selects (R60, R64). -/
def select8 (op : BitVec 4) (f : Fields) : Instr :=
  if op = 0#4 then .none8 f
  else if op = 1#4 then .copy8 f
  else if op = 2#4 then .add8 f
  else if op = 3#4 then .jumpIfZero8 f
  else if op = 4#4 then .poke8 f
  else if op = 5#4 then .halt8 f
  else if op.extractLsb' 1 3 = 3#3 then .unassigned8At6 (op.extractLsb' 0 1) f
  else .unassigned8At8 (op.extractLsb' 0 3) f

/-- `Decode` in `CFG16` (R53). -/
def decode16 (w : Word 16) : Instr := select16 (opcodeField16 w) (fields16 w)

/-- `Decode` in `CFG8` (R53). -/
def decode8 (w : Word 8) : Instr := select8 (opcodeField8 w) (fields8 w)

/-- The instruction read from an opcode word whose bits are `w`: a `CFG16` word has 16 bits and a `CFG8` word 8
(R51, R52). The operand words are no part of what is decoded (R50). No other number of bits is an opcode word. -/
def decodeTableWord (nbits w : Nat) : Option Instr :=
  if nbits = 16 then some (decode16 (BitVec.ofNat 16 w))
  else if nbits = 8 then some (decode8 (BitVec.ofNat 8 w))
  else none

/-! ### The encoder -/

/-- The value of the opcode field (R60); an unassigned row adds its free bits to the first opcode of its block. -/
def Instr.opcode : Instr → Nat
  | .none16 _ | .none8 _ => 0
  | .copy16 _ | .copy8 _ => 1
  | .add16 _ | .add8 _ => 2
  | .jumpIfZero16 _ | .jumpIfZero8 _ => 3
  | .poke16 _ | .poke8 _ => 4
  | .halt16 _ | .halt8 _ => 5
  | .unassigned16At6 x _ | .unassigned8At6 x _ => 6 + x.toNat
  | .unassigned16At8 x _ | .unassigned8At8 x _ => 8 + x.toNat
  | .unassigned16At16 x _ => 16 + x.toNat
  | .unassigned16At32 x _ => 32 + x.toNat
  | .unassigned16At64 x _ => 64 + x.toNat
  | .unassigned16At128 x _ => 128 + x.toNat

/-- `Encode16` of R63: the reserved bits are written 0. -/
def pack16 (op : BitVec 8) (f : Fields) : Word 16 :=
  0#3 ++ BitVec.ofNat 2 f.argc.val ++ BitVec.ofBool f.writeAddr ++ BitVec.ofBool f.readAddr1
    ++ BitVec.ofBool f.readAddr0 ++ op

/-- `Encode8` of R63: the top bit holds `argc - 1`. -/
def pack8 (op : BitVec 4) (f : Fields) : Word 8 :=
  BitVec.ofNat 1 (f.argc.val - 1) ++ BitVec.ofBool f.writeAddr ++ BitVec.ofBool f.readAddr1
    ++ BitVec.ofBool f.readAddr0 ++ op

/-- The `CFG16` opcode word of an instruction of that configuration. -/
def encode16 (i : Instr) : Word 16 := pack16 (BitVec.ofNat 8 i.opcode) i.fields

/-- The `CFG8` opcode word of an instruction of that configuration. -/
def encode8 (i : Instr) : Word 8 := pack8 (BitVec.ofNat 4 i.opcode) i.fields

/-! ### Lengths -/

/-- The number of words that follow the opcode word: the write-address word, if flagged, and the argument words
(R50). -/
def Fields.operandWords (f : Fields) : Nat := f.writeAddr.toNat + f.argc.val

/-- The number of words the instruction occupies: `1 + write_addr + argc`, but 1 for the `HALT` of `CFG8` (R56). -/
def Instr.length : Instr → Nat
  | .none16 f | .copy16 f | .add16 f | .jumpIfZero16 f | .poke16 f | .halt16 f => 1 + f.operandWords
  | .unassigned16At6 _ f | .unassigned16At8 _ f | .unassigned16At16 _ f => 1 + f.operandWords
  | .unassigned16At32 _ f | .unassigned16At64 _ f | .unassigned16At128 _ f => 1 + f.operandWords
  | .none8 f | .copy8 f | .add8 f | .jumpIfZero8 f | .poke8 f => 1 + f.operandWords
  | .unassigned8At6 _ f | .unassigned8At8 _ f => 1 + f.operandWords
  | .halt8 _ => 1

/-! ### The opcode table, as spec/opcode_table.json has it -/

/-- A row of the table: a word `w` of configuration `config` selects it when `w AND mask = value` (R64). -/
structure Row where
  config : Cfg
  mask : Nat
  value : Nat
  deriving DecidableEq, Repr

/-- The row an instruction belongs to. -/
def Instr.row : Instr → Row
  | .none16 _ => ⟨.cfg16, 0x00FF, 0x0000⟩
  | .copy16 _ => ⟨.cfg16, 0x00FF, 0x0001⟩
  | .add16 _ => ⟨.cfg16, 0x00FF, 0x0002⟩
  | .jumpIfZero16 _ => ⟨.cfg16, 0x00FF, 0x0003⟩
  | .poke16 _ => ⟨.cfg16, 0x00FF, 0x0004⟩
  | .halt16 _ => ⟨.cfg16, 0x00FF, 0x0005⟩
  | .unassigned16At6 _ _ => ⟨.cfg16, 0x00FE, 0x0006⟩
  | .unassigned16At8 _ _ => ⟨.cfg16, 0x00F8, 0x0008⟩
  | .unassigned16At16 _ _ => ⟨.cfg16, 0x00F0, 0x0010⟩
  | .unassigned16At32 _ _ => ⟨.cfg16, 0x00E0, 0x0020⟩
  | .unassigned16At64 _ _ => ⟨.cfg16, 0x00C0, 0x0040⟩
  | .unassigned16At128 _ _ => ⟨.cfg16, 0x0080, 0x0080⟩
  | .none8 _ => ⟨.cfg8, 0x0F, 0x00⟩
  | .copy8 _ => ⟨.cfg8, 0x0F, 0x01⟩
  | .add8 _ => ⟨.cfg8, 0x0F, 0x02⟩
  | .jumpIfZero8 _ => ⟨.cfg8, 0x0F, 0x03⟩
  | .poke8 _ => ⟨.cfg8, 0x0F, 0x04⟩
  | .halt8 _ => ⟨.cfg8, 0x0F, 0x05⟩
  | .unassigned8At6 _ _ => ⟨.cfg8, 0x0E, 0x06⟩
  | .unassigned8At8 _ _ => ⟨.cfg8, 0x08, 0x08⟩

/-- The rows of spec/opcode_table.json, in its order. -/
def opcodeTable : List Row :=
  [⟨.cfg16, 0x00FF, 0x0000⟩, ⟨.cfg16, 0x00FF, 0x0001⟩, ⟨.cfg16, 0x00FF, 0x0002⟩, ⟨.cfg16, 0x00FF, 0x0003⟩,
    ⟨.cfg16, 0x00FF, 0x0004⟩, ⟨.cfg16, 0x00FF, 0x0005⟩, ⟨.cfg16, 0x00FE, 0x0006⟩, ⟨.cfg16, 0x00F8, 0x0008⟩,
    ⟨.cfg16, 0x00F0, 0x0010⟩, ⟨.cfg16, 0x00E0, 0x0020⟩, ⟨.cfg16, 0x00C0, 0x0040⟩, ⟨.cfg16, 0x0080, 0x0080⟩]
  ++ [⟨.cfg8, 0x0F, 0x00⟩, ⟨.cfg8, 0x0F, 0x01⟩, ⟨.cfg8, 0x0F, 0x02⟩, ⟨.cfg8, 0x0F, 0x03⟩,
    ⟨.cfg8, 0x0F, 0x04⟩, ⟨.cfg8, 0x0F, 0x05⟩, ⟨.cfg8, 0x0E, 0x06⟩, ⟨.cfg8, 0x08, 0x08⟩]

/-- The rows of a configuration that the word with bits `w` selects. -/
def rowsMatching (c : Cfg) (w : Nat) : List Row :=
  opcodeTable.filter fun r => r.config = c ∧ w &&& r.mask = r.value

end Sys2Proof
end

