-- ==== Sys2Proof/Machine/Operands.lean ====
section
/-! DEFINITION. The operands: the fetch of the write-address word and the argument words, the dereference pass and the
write-back (spec/30_encoding.md R50, R57; spec/40_step_datapath.md R75 to R79). -/

namespace Sys2Proof.Machine

variable {w : Nat}

/-! ### Actions 3 to 5 and 7 of a step -/

/-- Action 3: the write-address word, if the flag is set (R75). -/
def Mach.fetchWriteAddr (m : Mach w) (f : Fields) : Run w (Option (Word w) × Mach w) :=
  if f.writeAddr then
    match m.fetch with
    | .ok (a, m') => .ok (some a, m')
    | .error e => .error e
  else .ok (none, m)

/-- One turn of the argument fetch: the next word into the register that `put` writes, if `wanted` (R76). -/
def Mach.fetchInto (m : Mach w) (wanted : Bool) (put : Mach w → Word w → Mach w) : Run w (Mach w) :=
  if wanted then
    match m.fetch with
    | .ok (v, m') => .ok (put m' v)
    | .error e => .error e
  else .ok m

/-- Action 4: argument word `i` into `in[i]`, for `i` below `argc` in ascending order (R76). -/
def Mach.fetchArgs (m : Mach w) (f : Fields) : Run w (Mach w) :=
  match m.fetchInto (decide (0 < f.argc.val)) Mach.setIn0 with
  | .error e => .error e
  | .ok m0 =>
    match m0.fetchInto (decide (1 < f.argc.val)) Mach.setIn1 with
    | .error e => .error e
    | .ok m1 => m1.fetchInto (decide (2 < f.argc.val)) Mach.setIn2

/-- Action 5 for operand 0: `in[0] <- MemRead(in[0], 1)`, if flagged (R77). -/
def Mach.deref0 (m : Mach w) (f : Fields) : Mach w :=
  if f.readAddr0 then (m.memRead m.in0).2.setIn0 (m.memRead m.in0).1 else m

/-- Action 5 for operand 1: `in[1] <- MemRead(in[1], 1)`, if flagged (R77). -/
def Mach.deref1 (m : Mach w) (f : Fields) : Mach w :=
  if f.readAddr1 then (m.memRead m.in1).2.setIn1 (m.memRead m.in1).1 else m

/-- Action 5: the dereference pass, operand 0 first (R43, R77). It depends on the flags alone, in both configurations
and for every opcode (R86). -/
def Mach.derefPass (m : Mach w) (f : Fields) : Mach w := (m.deref0 f).deref1 f

/-- Action 7: `out` to the pending write address, if there is one, whatever the opcode (R79). -/
def Mach.writeBack (m : Mach w) (dest : Option (Word w)) : Mach w :=
  match dest with
  | some a => m.memWrite a m.out
  | none => m

/-! ### The operands as the rules state them

These functions of the machine right after the opcode word was fetched say what the actions above come to; the
statements are written with them. -/

/-- The `k`-th word that follows the opcode word (R50). -/
def Mach.streamWord (m : Mach w) (k : Nat) : Word w := m.wordAt (m.pc + BitVec.ofNat w k)

/-- The write-address word, the first after the opcode word (R50, R75). -/
def Mach.writeAddrWord (m : Mach w) : Word w := m.wordAt m.pc

/-- Argument word `i` (R50). -/
def Mach.argWord (m : Mach w) (f : Fields) (i : Nat) : Word w := m.streamWord (f.writeAddr.toNat + i)

/-- `in[0]` after the argument fetch; not loaded if `argc` is 0 (R76). -/
def Mach.loaded0 (m : Mach w) (f : Fields) : Word w := if 0 < f.argc.val then m.argWord f 0 else m.in0

/-- `in[1]` after the argument fetch; not loaded if `argc` is below 2 (R76). -/
def Mach.loaded1 (m : Mach w) (f : Fields) : Word w := if 1 < f.argc.val then m.argWord f 1 else m.in1

/-- Operand 0 (R57). -/
def Mach.operand0 (m : Mach w) (f : Fields) : Word w :=
  if f.readAddr0 then m.wordAt (m.loaded0 f) else m.loaded0 f

/-- Operand 1 (R57). -/
def Mach.operand1 (m : Mach w) (f : Fields) : Word w :=
  if f.readAddr1 then m.wordAt (m.loaded1 f) else m.loaded1 f

/-- Operand 2, which has no flag (R57). -/
def Mach.operand2 (m : Mach w) (f : Fields) : Word w := if 2 < f.argc.val then m.argWord f 2 else m.in2

/-- `pc` past the operand words (R56, R87). -/
def Mach.pcPast (m : Mach w) (f : Fields) : Word w := m.pc + BitVec.ofNat w f.operandWords

/-- No word of the instruction after the opcode word lies at the last address (R37, R73). -/
abbrev Mach.Fits (m : Mach w) (f : Fields) : Prop := m.pc.toNat + f.operandWords < memSize w

/-- The read events of the operand words, in order (R43). -/
def Mach.streamReads (m : Mach w) : Nat → List (Event w)
  | 0 => []
  | n + 1 => m.streamReads n ++ [.read (m.pc + BitVec.ofNat w n) (m.streamWord n)]

/-- The read events of the dereference pass, in order (R43, R77). -/
def Mach.derefReads (m : Mach w) (f : Fields) : List (Event w) :=
  (if f.readAddr0 then [.read (m.loaded0 f) (m.operand0 f)] else [])
    ++ (if f.readAddr1 then [.read (m.loaded1 f) (m.operand1 f)] else [])

end Sys2Proof.Machine
end

