-- ==== Sys2Proof/Machine/Datapath.lean ====
section
/-! DEFINITION. Actions 3 to 7 of a step around the action of an opcode, common to every instruction but the `HALT` of
`CFG8` (spec/40_step_datapath.md R70, R78), and the machine of one configuration inside State. -/

namespace Sys2Proof.Machine

variable {w : Nat}

/-- Actions 3 to 7 (R70). `act` is the opcode's arm of action 6. -/
def Mach.general (m : Mach w) (f : Fields) (act : Mach w → Mach w) : Run w (Mach w) :=
  match m.fetchWriteAddr f with
  | .error e => .error e
  | .ok (dest, m1) =>
    match m1.fetchArgs f with
    | .error e => .error e
    | .ok m2 => .ok ((act (m2.derefPass f)).writeBack dest)

/-- The outcome of a run of the datapath. -/
def runOutcome (wrap : Mach w → State) (r : Run w (Mach w)) : Host.Outcome State Fault Refusal :=
  match r with
  | .ok m => .next (wrap m)
  | .error e => overrunOutcome wrap e

/-- A meaning of the `CFG16` machine. The `CFG8` machine has no such instruction. -/
def on16 (s : State) (k : Mach 16 → Run 16 (Mach 16)) : Host.Outcome State Fault Refusal :=
  match s.chip with
  | .cfg16 m => runOutcome State.of16 (k m)
  | .cfg8 _ => .refused .wrongConfiguration

/-- A meaning of the `CFG8` machine. The `CFG16` machine has no such instruction. -/
def on8 (s : State) (k : Mach 8 → Run 8 (Mach 8)) : Host.Outcome State Fault Refusal :=
  match s.chip with
  | .cfg8 m => runOutcome State.of8 (k m)
  | .cfg16 _ => .refused .wrongConfiguration

end Sys2Proof.Machine
end

