-- ==== Sys2Proof/Machine/Flags.lean ====
section
/-! DEFINITION. The arithmetic and the tests. The hardware has no flags (spec/10_state.md R15): `ADD` records no carry and
`JUMP_IF_ZERO` tests its operand directly, so nothing here is stored (spec/41_data_ops.md R94). -/

namespace Sys2Proof.Machine

variable {w : Nat}

/-- The adder: `(a + b) mod 2^W`, the carry recorded nowhere (R92, R94). -/
def addWrap (a b : Word w) : Word w := BitVec.ofNat w (a.toNat + b.toNat)

/-- The one comparison: all `W` bits against zero (R94, R100). -/
def isZero (v : Word w) : Bool := v == 0#w

/-- Bits 7 to 0 of a word (R34, R101). -/
def lowByte (v : Word w) : Byte := v.extractLsb' 0 8

end Sys2Proof.Machine
end

