-- ==== Sys2Proof/Machine/Control.lean ====
section
/-! DEFINITION. The control and system instructions JUMP_IF_ZERO, POKE and HALT (spec/42_control_io.md). Each meaning
starts right after action 1: the opcode word is fetched and `pc` is past it. -/

namespace Sys2Proof.Machine

variable {w : Nat}

/-- Action 6 of `JUMP_IF_ZERO`: if `in[1] = 0` then `pc <- in[0]` (R100). Every `W`-bit target is an address, so
there is no test of the target (R111). -/
def Mach.actJumpIfZero (m : Mach w) : Mach w := m.setPc (if isZero m.in1 then m.in0 else m.pc)

/-- Action 6 of `POKE`: emit the low byte of `in[1]` (R101). -/
def Mach.actPoke (m : Mach w) : Mach w := m.emit (lowByte m.in1)

/-- Action 6 of the `HALT` of `CFG16`, and action 2 of that of `CFG8`: `halted <- 1` (R102, R103). -/
def Mach.actHalt (m : Mach w) : Mach w := m.setHalted

/-- `JUMP_IF_ZERO` in `CFG16` (R100). -/
def execJumpIfZero16 (f : Fields) (s : State) : Host.Outcome State Fault Refusal :=
  on16 s fun m => m.general f Mach.actJumpIfZero

/-- `POKE` in `CFG16` (R101). -/
def execPoke16 (f : Fields) (s : State) : Host.Outcome State Fault Refusal :=
  on16 s fun m => m.general f Mach.actPoke

/-- `HALT` in `CFG16`: through the general path, with its operand words and its write-back (R102). -/
def execHalt16 (f : Fields) (s : State) : Host.Outcome State Fault Refusal :=
  on16 s fun m => m.general f Mach.actHalt

/-- `JUMP_IF_ZERO` in `CFG8` (R100). -/
def execJumpIfZero8 (f : Fields) (s : State) : Host.Outcome State Fault Refusal :=
  on8 s fun m => m.general f Mach.actJumpIfZero

/-- `POKE` in `CFG8` (R101). -/
def execPoke8 (f : Fields) (s : State) : Host.Outcome State Fault Refusal :=
  on8 s fun m => m.general f Mach.actPoke

/-- `HALT` in `CFG8`: the early return, which fetches no further word and writes nothing back, whatever the fields
say (R74, R103). -/
def execHalt8 (_f : Fields) (s : State) : Host.Outcome State Fault Refusal :=
  on8 s fun m => .ok m.actHalt

end Sys2Proof.Machine
end

