-- ==== Sys2Proof/Machine/Data.lean ====
section
/-! DEFINITION. The data instructions NONE, COPY, ADD and the unassigned opcodes (spec/41_data_ops.md). Each meaning
starts right after action 1: the opcode word is fetched and `pc` is past it. -/

namespace Sys2Proof.Machine

variable {w : Nat}

/-- Action 6 of `NONE` and of the unassigned opcodes: nothing (R90, R93). -/
def Mach.actNone (m : Mach w) : Mach w := m

/-- Action 6 of `COPY`: `out <- in[0]` (R91). -/
def Mach.actCopy (m : Mach w) : Mach w := m.setOut m.in0

/-- Action 6 of `ADD`: `out <- (in[0] + in[1]) mod 2^W` (R92). -/
def Mach.actAdd (m : Mach w) : Mach w := m.setOut (addWrap m.in0 m.in1)

/-- `NONE` in `CFG16` (R90). -/
def execNone16 (f : Fields) (s : State) : Host.Outcome State Fault Refusal :=
  on16 s fun m => m.general f Mach.actNone

/-- `COPY` in `CFG16` (R91). -/
def execCopy16 (f : Fields) (s : State) : Host.Outcome State Fault Refusal :=
  on16 s fun m => m.general f Mach.actCopy

/-- `ADD` in `CFG16` (R92). -/
def execAdd16 (f : Fields) (s : State) : Host.Outcome State Fault Refusal :=
  on16 s fun m => m.general f Mach.actAdd

/-- Opcodes 6 to 7 of `CFG16`: as `NONE` (R93). -/
def execUnassigned16At6 (_x : BitVec 1) (f : Fields) (s : State) : Host.Outcome State Fault Refusal :=
  on16 s fun m => m.general f Mach.actNone

/-- Opcodes 8 to 15 of `CFG16`: as `NONE` (R93). -/
def execUnassigned16At8 (_x : BitVec 3) (f : Fields) (s : State) : Host.Outcome State Fault Refusal :=
  on16 s fun m => m.general f Mach.actNone

/-- Opcodes 16 to 31 of `CFG16`: as `NONE` (R93). -/
def execUnassigned16At16 (_x : BitVec 4) (f : Fields) (s : State) : Host.Outcome State Fault Refusal :=
  on16 s fun m => m.general f Mach.actNone

/-- Opcodes 32 to 63 of `CFG16`: as `NONE` (R93). -/
def execUnassigned16At32 (_x : BitVec 5) (f : Fields) (s : State) : Host.Outcome State Fault Refusal :=
  on16 s fun m => m.general f Mach.actNone

/-- Opcodes 64 to 127 of `CFG16`: as `NONE` (R93). -/
def execUnassigned16At64 (_x : BitVec 6) (f : Fields) (s : State) : Host.Outcome State Fault Refusal :=
  on16 s fun m => m.general f Mach.actNone

/-- Opcodes 128 to 255 of `CFG16`: as `NONE` (R93). -/
def execUnassigned16At128 (_x : BitVec 7) (f : Fields) (s : State) : Host.Outcome State Fault Refusal :=
  on16 s fun m => m.general f Mach.actNone

/-- `NONE` in `CFG8` (R90). -/
def execNone8 (f : Fields) (s : State) : Host.Outcome State Fault Refusal :=
  on8 s fun m => m.general f Mach.actNone

/-- `COPY` in `CFG8` (R91): dereferences as every opcode does, with no special case for `read_addr1` (R86). -/
def execCopy8 (f : Fields) (s : State) : Host.Outcome State Fault Refusal :=
  on8 s fun m => m.general f Mach.actCopy

/-- `ADD` in `CFG8` (R92). -/
def execAdd8 (f : Fields) (s : State) : Host.Outcome State Fault Refusal :=
  on8 s fun m => m.general f Mach.actAdd

/-- Opcodes 6 to 7 of `CFG8`: as `NONE` (R93). -/
def execUnassigned8At6 (_x : BitVec 1) (f : Fields) (s : State) : Host.Outcome State Fault Refusal :=
  on8 s fun m => m.general f Mach.actNone

/-- Opcodes 8 to 15 of `CFG8`: as `NONE` (R93). -/
def execUnassigned8At8 (_x : BitVec 3) (f : Fields) (s : State) : Host.Outcome State Fault Refusal :=
  on8 s fun m => m.general f Mach.actNone

end Sys2Proof.Machine
end

