-- ==== Sys2Proof/Machine/Dispatch.lean ====
section
/-! DEFINITION. One arm per constructor of Instr, each a direct call of its meaning. -/

namespace Sys2Proof.Machine

def exec (i : Instr) (s : State) : Host.Outcome State Fault Refusal :=
  match i with
  | .none16 f => Sys2Proof.Machine.execNone16 f s
  | .copy16 f => Sys2Proof.Machine.execCopy16 f s
  | .add16 f => Sys2Proof.Machine.execAdd16 f s
  | .jumpIfZero16 f => Sys2Proof.Machine.execJumpIfZero16 f s
  | .poke16 f => Sys2Proof.Machine.execPoke16 f s
  | .halt16 f => Sys2Proof.Machine.execHalt16 f s
  | .unassigned16At6 x f => Sys2Proof.Machine.execUnassigned16At6 x f s
  | .unassigned16At8 x f => Sys2Proof.Machine.execUnassigned16At8 x f s
  | .unassigned16At16 x f => Sys2Proof.Machine.execUnassigned16At16 x f s
  | .unassigned16At32 x f => Sys2Proof.Machine.execUnassigned16At32 x f s
  | .unassigned16At64 x f => Sys2Proof.Machine.execUnassigned16At64 x f s
  | .unassigned16At128 x f => Sys2Proof.Machine.execUnassigned16At128 x f s
  | .none8 f => Sys2Proof.Machine.execNone8 f s
  | .copy8 f => Sys2Proof.Machine.execCopy8 f s
  | .add8 f => Sys2Proof.Machine.execAdd8 f s
  | .jumpIfZero8 f => Sys2Proof.Machine.execJumpIfZero8 f s
  | .poke8 f => Sys2Proof.Machine.execPoke8 f s
  | .halt8 f => Sys2Proof.Machine.execHalt8 f s
  | .unassigned8At6 x f => Sys2Proof.Machine.execUnassigned8At6 x f s
  | .unassigned8At8 x f => Sys2Proof.Machine.execUnassigned8At8 x f s

end Sys2Proof.Machine
end

