-- ==== Sys2Proof/Machine/Cycle.lean ====
section
/-! DEFINITION. One step request to the machine of one configuration (spec/40_step_datapath.md R70 to R72). -/

namespace Sys2Proof.Machine

/-- A step request (R133). A Running machine fetches and decodes the opcode word and runs the instruction (R70, R72).
In the Halted and the Faulted state the request changes nothing (R71). -/
def Mach.request {w : Nat} (wrap : Mach w → State) (decode : Word w → Instr) (m : Mach w) :
    Host.Outcome State Fault Refusal :=
  match m.status with
  | .running =>
    match m.fetchOpcode with
    | .ok (iw, m') => exec (decode iw) (wrap m')
    | .error e => overrunOutcome wrap e
  | .halted => .next (wrap m)
  | .faulted => .next (wrap m)

end Sys2Proof.Machine
end

