-- ==== Sys2Proof/Machine/Step.lean ====
section
/-! DEFINITION. The step of the machine, and a state whose next step fetches a given opcode word. -/

namespace Sys2Proof.Machine

/-- `step` (R70): the machine of either configuration answers a step request with its own decoder. -/
def step (s : State) : Host.Outcome State Fault Refusal :=
  match s.chip with
  | .cfg16 m => m.request State.of16 decode16
  | .cfg8 m => m.request State.of8 decode8

/-- `s` with the opcode word `w` at the program counter and zero words after it, Running, and of the configuration
whose opcode words have `nbits` bits. The loader would have put the word there (notes/assumptions/7.md). -/
def State.withFetchWord (s : State) (nbits w : Nat) : State :=
  if nbits = 16 then s.placeWord16 (BitVec.ofNat 16 w)
  else if nbits = 8 then s.placeWord8 (BitVec.ofNat 8 w)
  else s

end Sys2Proof.Machine
end

