-- ==== Sys2Proof/Safety.lean ====
section
/-! DEFINITION. What the claims speak of: the invariant of the machine, the event history against memory and output, and
the end of a run (spec/10_state.md R10, R17, R19; spec/20_memory.md R39; spec/70_reset_and_hazards.md R134). -/

namespace Sys2Proof

open Sys2Proof.Machine

variable {w : Nat}

/-! ### The invariant -/

/-- The fault record, if set, is the one a step can raise: `PcAdvance` at `MEMSIZE` (R111). -/
def FaultLegal (r : Option (Overrun w)) : Prop :=
  ∀ o, r = some o → o.kind = .pcAdvance ∧ o.addr.toNat = memSize w

/-- The invariant: memory in canonical form and inside the address space (R10, R30), a machine that is Faulted is not
Halted (R19), and the fault record is one that can be raised (R111). -/
structure MachInv (m : Mach w) : Prop where
  memory : m.mem.wf
  notBoth : ¬ (m.halted = true ∧ m.fault.isSome = true)
  fault : FaultLegal m.fault

/-- The invariant of the machine of either configuration. -/
def StateInv (s : State) : Prop :=
  match s.chip with
  | .cfg16 m => MachInv m
  | .cfg8 m => MachInv m

/-! ### The event history -/

/-- The bytes emitted in a history, in order (R17). -/
def emitted : List (Event w) → List Byte
  | [] => []
  | .emit b :: rest => b :: emitted rest
  | .read _ _ :: rest => emitted rest
  | .write _ _ :: rest => emitted rest

/-- The word at `a` after a history, from an image: that of the most recent write to `a`, else the image's (R39). -/
def latest (image : Word w → Word w) (a : Word w) : List (Event w) → Word w
  | [] => image a
  | .write b v :: rest => latest (fun c => if c = b then v else image c) a rest
  | .read _ _ :: rest => latest image a rest
  | .emit _ :: rest => latest image a rest

/-- Every read of the history returned the most recent earlier write to its address, or the image's word (R39). -/
def ReadsLatest (image : Word w → Word w) (h : List (Event w)) : Prop :=
  ∀ before a v after, h = before ++ .read a v :: after → v = latest image a before

/-- The history explains the machine: memory holds the latest writes over the image, the reads returned them, and the
output stream is what was emitted (R17, R39). -/
structure HistoryExplains (image : Word w → Word w) (m : Mach w) : Prop where
  memory : ∀ a, m.wordAt a = latest image a m.events
  reads : ReadsLatest image m.events
  output : m.outStream = emitted m.events

/-- The history explains the machine of either configuration, from an image of each. -/
def StateExplained (image16 : Word 16 → Word 16) (image8 : Word 8 → Word 8) (s : State) : Prop :=
  match s.chip with
  | .cfg16 m => HistoryExplains image16 m
  | .cfg8 m => HistoryExplains image8 m

/-- How many accesses of a history are reads. -/
def readCount : List (Event w) → Nat
  | [] => 0
  | .read _ _ :: rest => readCount rest + 1
  | .emit _ :: rest => readCount rest
  | .write _ _ :: rest => readCount rest

/-- How many accesses of a history are writes. -/
def writeCount : List (Event w) → Nat
  | [] => 0
  | .write _ _ :: rest => writeCount rest + 1
  | .emit _ :: rest => writeCount rest
  | .read _ _ :: rest => writeCount rest

/-! ### Statements about the machine of either configuration -/

/-- Two states of one configuration whose machines are related. -/
def Related (R : (w : Nat) → Mach w → Mach w → Prop) (s t : State) : Prop :=
  match s.chip, t.chip with
  | .cfg16 m, .cfg16 u => R 16 m u
  | .cfg8 m, .cfg8 u => R 8 m u
  | .cfg16 _, .cfg8 _ => False
  | .cfg8 _, .cfg16 _ => False

/-! ### The end of a run -/

/-- `MEMSIZE` of the machine of either configuration (R3). -/
def memSizeOf (s : State) : Nat := memSize s.cfg.width

/-- The halted bit of the machine of either configuration. -/
def isHalted (s : State) : Bool :=
  match s.chip with
  | .cfg16 m => m.halted
  | .cfg8 m => m.halted

/-- The status of the machine of either configuration (R19). -/
def statusOf (s : State) : Status :=
  match s.chip with
  | .cfg16 m => m.status
  | .cfg8 m => m.status

/-- The run from `s` ends normally at step `k`, in state `t`: the first step after which `halted = 1` (R134). -/
def EndsNormally (s : State) (k : Nat) (t : State) : Prop :=
  core.run k s = .next t ∧ isHalted t = true ∧
    ∀ j u, j < k → core.run j s = .next u → isHalted u = false

/-- The run from `s` ends in the fault `r` at the step after `k` steps: the first that raises the overrun, since all
`k` steps before it completed (R134). Such a run has no result. -/
def EndsInFault (s : State) (k : Nat) (r : Fault) : Prop :=
  ∃ t, core.run k s = .next t ∧ step t = .fault r

/-- A safe run never faults and never meets an instruction without a meaning. -/
def SafeRun (s : State) : Prop := ∀ k, ∃ t, core.run k s = .next t

end Sys2Proof
end

