-- ==== Sys2Proof/Certificates/Slice0/Obligations.lean ====
section
/-! DEFINITION. The statements for the provers, each formalising rules of spec/, and the predicates they use.

Two conventions. `exec` starts right after action 1 of a step, with the opcode word fetched and `pc` past it; the
statement StepRunsDecodedInstruction carries what is said of `exec` to `step`. In the machine `m` it starts from, the
scratch registers hold the free values of that step (R12, R13), so `m.in0`, `m.in1`, `m.in2` and `m.out` below are the
spec's `UNSPEC_W`, and nothing is assumed of them. -/

namespace Sys2Proof.Claims

open Sys2Proof.Machine

variable {w : Nat}

/-! ### What an instruction that completes leaves -/

/-- The part of the result that is an opcode's own: `pc`, `out`, `halted`, and the bytes it emits. -/
structure Effect (w : Nat) where
  pc : Word w
  out : Word w
  halted : Bool
  bytes : List Byte

/-- `NONE` and the unassigned opcodes (R90, R93): `pc` past the instruction and nothing else. -/
def noneEffect (f : Fields) (m : Mach w) : Effect w := ⟨m.pcPast f, m.out, m.halted, []⟩

/-- `COPY` (R91): `out <- operand0`. -/
def copyEffect (f : Fields) (m : Mach w) : Effect w := { noneEffect f m with out := m.operand0 f }

/-- `ADD` (R92): `out <- (operand0 + operand1) mod 2^W`. -/
def addEffect (f : Fields) (m : Mach w) : Effect w :=
  { noneEffect f m with out := BitVec.ofNat w (((m.operand0 f).toNat + (m.operand1 f).toNat) % 2 ^ w) }

/-- `JUMP_IF_ZERO` (R100): if `operand1 = 0` then `pc <- operand0`, else past the instruction. -/
def jumpEffect (f : Fields) (m : Mach w) : Effect w :=
  { noneEffect f m with pc := if (m.operand1 f).toNat = 0 then m.operand0 f else m.pcPast f }

/-- `POKE` (R101): emit `operand1 mod 256`. -/
def pokeEffect (f : Fields) (m : Mach w) : Effect w :=
  { noneEffect f m with bytes := [BitVec.ofNat 8 ((m.operand1 f).toNat % 256)] }

/-- `HALT` in `CFG16` (R102): `halted <- 1`. -/
def haltEffect (f : Fields) (m : Mach w) : Effect w := { noneEffect f m with halted := true }

/-- The whole state `t` that an instruction with fields `f` leaves of `m`, when its own effect is `e`: the operands are
in the input registers (R57, R76, R77), `out` is stored at the write-address word if the flag is set and every other
word is as it was (R79), and the history grows by the accesses in their order (R43, R83). -/
structure Completed (f : Fields) (m t : Mach w) (e : Effect w) : Prop where
  pc : t.pc = e.pc
  in0 : t.in0 = m.operand0 f
  in1 : t.in1 = m.operand1 f
  in2 : t.in2 = m.operand2 f
  out : t.out = e.out
  halted : t.halted = e.halted
  fault : t.fault = m.fault
  outStream : t.outStream = m.outStream ++ e.bytes
  memory : ∀ a, t.wordAt a = if f.writeAddr = true ∧ a = m.writeAddrWord then e.out else m.wordAt a
  draws : t.draws = m.draws
  events : t.events = m.events ++ m.streamReads f.operandWords ++ m.derefReads f ++ e.bytes.map Event.emit
    ++ (if f.writeAddr then [Event.write m.writeAddrWord e.out] else [])

/-- The `CFG16` instruction `i` completes with effect `e` in every state in which its words fit below the last
address. -/
def Completes16 (i : Instr) (e : Mach 16 → Effect 16) : Prop :=
  ∀ m : Mach 16, m.mem.wf → m.Fits i.fields →
    ∃ t, exec i (.of16 m) = .next (.of16 t) ∧ Completed i.fields m t (e m)

/-- The same of a `CFG8` instruction. -/
def Completes8 (i : Instr) (e : Mach 8 → Effect 8) : Prop :=
  ∀ m : Mach 8, m.mem.wf → m.Fits i.fields →
    ∃ t, exec i (.of8 m) = .next (.of8 t) ∧ Completed i.fields m t (e m)

/-! ### Frames -/

/-- What every instruction of the common datapath leaves unchanged: the fault record, the count of draws, each input
register that is neither loaded nor dereferenced, and every word but the one at the write-address word if the flag is
set. -/
structure Frame (f : Fields) (m t : Mach w) : Prop where
  fault : t.fault = m.fault
  draws : t.draws = m.draws
  in0 : f.argc.val = 0 → f.readAddr0 = false → t.in0 = m.in0
  in1 : f.argc.val ≤ 1 → f.readAddr1 = false → t.in1 = m.in1
  in2 : f.argc.val ≤ 2 → t.in2 = m.in2
  memory : ∀ a, ¬ (f.writeAddr = true ∧ a = m.writeAddrWord) → t.wordAt a = m.wordAt a

/-- The frame of instruction `i` of `CFG16`: `Frame`, and `own` of its own. -/
def Frames16 (i : Instr) (own : Mach 16 → Mach 16 → Prop) : Prop :=
  ∀ (m : Mach 16) (s : State), m.mem.wf → exec i (.of16 m) = .next s →
    ∃ t, s = .of16 t ∧ Frame i.fields m t ∧ own m t

/-- The frame of instruction `i` of `CFG8`. -/
def Frames8 (i : Instr) (own : Mach 8 → Mach 8 → Prop) : Prop :=
  ∀ (m : Mach 8) (s : State), m.mem.wf → exec i (.of8 m) = .next s →
    ∃ t, s = .of8 t ∧ Frame i.fields m t ∧ own m t

/-- Nothing of `out`, `halted` and the output stream changes. -/
def KeepsOutHaltedStream (m t : Mach w) : Prop :=
  t.out = m.out ∧ t.halted = m.halted ∧ t.outStream = m.outStream

/-- Nothing of `halted` and the output stream changes. -/
def KeepsHaltedStream (m t : Mach w) : Prop := t.halted = m.halted ∧ t.outStream = m.outStream

/-- Nothing of `out` and `halted` changes. -/
def KeepsOutHalted (m t : Mach w) : Prop := t.out = m.out ∧ t.halted = m.halted

/-- Nothing of `out` and the output stream changes. -/
def KeepsOutStream (m t : Mach w) : Prop := t.out = m.out ∧ t.outStream = m.outStream

/-! ### What a step leaves -/

/-- What is left of a machine `m` by a step that fetches the opcode word of `i` (leaving `m1`) and completes as `t`
(R87). -/
structure StepLeaves (i : Instr) (m m1 t : Mach w) : Prop where
  sequential : i.opcode ≠ 3 ∨ (m1.operand1 i.fields).toNat ≠ 0 → t.pc.toNat = m.pc.toNat + i.length
  jumped : i.opcode = 3 → (m1.operand1 i.fields).toNat = 0 → t.pc = m1.operand0 i.fields
  memory : ∀ a, ¬ (i.fields.writeAddr = true ∧ a = m1.writeAddrWord) → t.wordAt a = m.wordAt a
  poked : i.opcode = 4 → ∃ b, t.outStream = m.outStream ++ [b]
  notPoked : i.opcode ≠ 4 → t.outStream = m.outStream
  halted : t.halted = decide (i.opcode = 5)

/-- The accesses of a step that does not fault: `reads` reads, then at most one byte emitted, then `writes` writes
(R43, R44, R83). -/
def AccessesAre (m t : Mach w) (reads writes : Nat) : Prop :=
  ∃ es ws : List (Event w), t.events = m.events ++ es ++ ws ∧
    readCount es = reads ∧ writeCount es = 0 ∧ readCount ws = 0 ∧ writeCount ws = writes ∧ emitted ws = []

/-- What a faulting step leaves of `m` (R112, R113): the record set, memory, output and `halted` as they were, and a
history that grows by reads alone, the last of them at the last address (R83, R111). -/
structure FaultLeaves (m t : Mach w) (kind : OverrunKind) (addr : Nat) : Prop where
  record : ∃ o, t.fault = some o ∧ o.kind = kind ∧ o.addr.toNat = addr
  status : t.status = .faulted
  memory : t.mem = m.mem
  outStream : t.outStream = m.outStream
  halted : t.halted = m.halted
  events : ∃ (es : List (Event w)) (a v : Word w), t.events = m.events ++ es ++ [.read a v] ∧
    writeCount es = 0 ∧ emitted es = [] ∧ a.toNat + 1 = memSize w

/-- A faulting step of `m`, at whose `pc` an instruction of `length` words lies, faults at the fetch of a word of that
instruction: one of its words lies at the last address, and what the step adds to the history is the reads of its words
in order, from the opcode word up to the one at the last address (R73, R83, R111). -/
structure FaultsFetchingLastWord (length : Nat) (m u : Mach w) : Prop where
  wordAtLast : memSize w ≤ m.pc.toNat + length
  events : u.events = m.events ++ m.streamReads (memSize w - m.pc.toNat)
  lastRead : ∃ (es : List (Event w)) (a v : Word w),
    m.streamReads (memSize w - m.pc.toNat) = es ++ [.read a v] ∧ a.toNat + 1 = memSize w

/-- The instruction reads no register that its step has not loaded: it dereferences only operands it fetches, fetches
the operands its opcode uses, and stores only a result it computes (R22, R67). -/
def UsesOnlyLoaded (i : Instr) : Prop :=
  (i.fields.readAddr0 = true → 0 < i.fields.argc.val) ∧ (i.fields.readAddr1 = true → 1 < i.fields.argc.val) ∧
  (i.opcode = 1 → 0 < i.fields.argc.val) ∧
  (i.opcode = 2 ∨ i.opcode = 3 ∨ i.opcode = 4 → 1 < i.fields.argc.val) ∧
  (i.fields.writeAddr = true → i.opcode = 1 ∨ i.opcode = 2)

/-- Two machines that agree in all but the scratch registers and the count of draws. -/
structure AgreeButDraws (m u : Mach w) : Prop where
  mem : u.mem = m.mem
  pc : u.pc = m.pc
  halted : u.halted = m.halted
  fault : u.fault = m.fault
  outStream : u.outStream = m.outStream
  events : u.events = m.events

end Sys2Proof.Claims

open Sys2Proof Sys2Proof.Machine Sys2Proof.Claims

/-! ### Encoding -/

/-- Opcode words of spec/95_test_vectors.md 2.1 and 2.2 decode as those tables say. -/
def Obligations.DecodeReadsSpecWords : Prop :=
  decode16 0x0D01#16 = .copy16 ⟨true, false, true, 1⟩ ∧
  decode16 0x1502#16 = .add16 ⟨true, false, true, 2⟩ ∧
  decode16 0x1203#16 = .jumpIfZero16 ⟨false, true, false, 2⟩ ∧
  decode16 0xE005#16 = .halt16 ⟨false, false, false, 0⟩ ∧
  decode16 0x1F07#16 = .unassigned16At6 1#1 ⟨true, true, true, 3⟩ ∧
  decode16 0x08FF#16 = .unassigned16At128 127#7 ⟨false, false, false, 1⟩ ∧
  decode8 0x51#8 = .copy8 ⟨true, false, true, 1⟩ ∧
  decode8 0xD2#8 = .add8 ⟨true, false, true, 2⟩ ∧
  decode8 0xA4#8 = .poke8 ⟨false, true, false, 2⟩ ∧
  decode8 0xF5#8 = .halt8 ⟨true, true, true, 2⟩ ∧
  decode8 0x76#8 = .unassigned8At6 0#1 ⟨true, true, true, 1⟩ ∧
  decode8 0x8F#8 = .unassigned8At8 7#3 ⟨false, false, false, 2⟩

/-- R63: `Encode` is what the two formulas say, it is the inverse of `Decode` on the legal field ranges, it is a
bijection in `CFG8`, and in `CFG16` it loses the reserved bits alone. -/
def Obligations.DecodeInvertsEncode : Prop :=
  (∀ i, i.WellFormed .cfg16 → decode16 (encode16 i) = i ∧
    (encode16 i).toNat = i.opcode + 256 * i.fields.readAddr0.toNat + 512 * i.fields.readAddr1.toNat
      + 1024 * i.fields.writeAddr.toNat + 2048 * i.fields.argc.val) ∧
  (∀ i, i.WellFormed .cfg8 → decode8 (encode8 i) = i ∧
    (encode8 i).toNat = i.opcode + 16 * i.fields.readAddr0.toNat + 32 * i.fields.readAddr1.toNat
      + 64 * i.fields.writeAddr.toNat + 128 * (i.fields.argc.val - 1)) ∧
  (∀ iw : Word 16, (encode16 (decode16 iw)).toNat = iw.toNat % 8192) ∧
  (∀ iw : Word 8, encode8 (decode8 iw) = iw)

/-- Every word selects exactly one row of its configuration's table, the row of the instruction it decodes to. -/
def Obligations.EveryWordSelectsOneRow : Prop :=
  (∀ iw : Word 16, rowsMatching .cfg16 iw.toNat = [(decode16 iw).row]) ∧
  (∀ iw : Word 8, rowsMatching .cfg8 iw.toNat = [(decode8 iw).row])

/-- R54: bits 15 to 13 of a `CFG16` opcode word are ignored. -/
def Obligations.ReservedBitsAreIgnored : Prop :=
  ∀ iw iw' : Word 16, (∀ k < 13, iw.getLsbD k = iw'.getLsbD k) →
    decode16 iw = decode16 iw' ∧ ∀ s, exec (decode16 iw) s = exec (decode16 iw') s

/-- R53, R60: each decoder answers an instruction of its own configuration with the opcode and the fields at the bits
R51 and R52 give, and `argc` in the range of R55. -/
def Obligations.DecodeTakesFieldsFromTheirBits : Prop :=
  (∀ iw : Word 16, (decode16 iw).WellFormed .cfg16 ∧ (decode16 iw).opcode = iw.toNat % 256 ∧
    (decode16 iw).fields.readAddr0.toNat = iw.toNat / 256 % 2 ∧
    (decode16 iw).fields.readAddr1.toNat = iw.toNat / 512 % 2 ∧
    (decode16 iw).fields.writeAddr.toNat = iw.toNat / 1024 % 2 ∧
    (decode16 iw).fields.argc.val = iw.toNat / 2048 % 4) ∧
  (∀ iw : Word 8, (decode8 iw).WellFormed .cfg8 ∧ (decode8 iw).opcode = iw.toNat % 16 ∧
    (decode8 iw).fields.readAddr0.toNat = iw.toNat / 16 % 2 ∧
    (decode8 iw).fields.readAddr1.toNat = iw.toNat / 32 % 2 ∧
    (decode8 iw).fields.writeAddr.toNat = iw.toNat / 64 % 2 ∧
    (decode8 iw).fields.argc.val = iw.toNat / 128 + 1)

/-- The length of an instruction, from its opcode word alone (R56): `1 + write_addr + argc`, but 1 for a `CFG8` word
whose opcode field is 5; 1 to 5 words in `CFG16`, 2 to 4 in `CFG8` but for `HALT`. -/
def Obligations.LengthIsReadFromOpcodeWord : Prop :=
  (∀ iw : Word 16, (decode16 iw).length = 1 + (fields16 iw).writeAddr.toNat + (fields16 iw).argc.val ∧
    1 ≤ (decode16 iw).length ∧ (decode16 iw).length ≤ 5) ∧
  (∀ iw : Word 8, opcodeField8 iw = 5#4 → (decode8 iw).length = 1) ∧
  (∀ iw : Word 8, opcodeField8 iw ≠ 5#4 →
    (decode8 iw).length = 1 + (fields8 iw).writeAddr.toNat + (fields8 iw).argc.val ∧
    2 ≤ (decode8 iw).length ∧ (decode8 iw).length ≤ 4)

/-! ### Reset -/

/-- What reset and load leave (R20, R130): `pc = ENTRY`, `halted` 0, no fault, no output, Running, and memory holding
the last word loaded at an address, 0 where nothing was loaded. The scratch registers are not spoken of. -/
def Obligations.ResetLeavesLoadedRunningMachine : Prop :=
  ∀ (w : Nat) (entry : Word w) (image : List (Word w × Word w)),
    (Mach.boot entry image).pc = entry ∧ (Mach.boot entry image).halted = false ∧
    (Mach.boot entry image).fault = none ∧ (Mach.boot entry image).outStream = [] ∧
    (Mach.boot entry image).status = .running ∧
    (∀ a, (∀ c ∈ image, c.1 ≠ a) → (Mach.boot entry image).wordAt a = 0#w) ∧
    (∀ (before after : List (Word w × Word w)) (a v : Word w), image = before ++ (a, v) :: after →
      (∀ c ∈ after, c.1 ≠ a) → (Mach.boot entry image).wordAt a = v)

/-- The invariant holds after reset, and after reset and load. The entry, the configuration and the scratch values of
`State.reset` are the model's choice (notes/assumptions/1.md to 3.md). -/
def Obligations.InvariantHoldsAfterReset : Prop :=
  StateInv State.reset ∧ (∀ entry image, StateInv (State.boot16 entry image)) ∧
    (∀ entry image, StateInv (State.boot8 entry image))

/-- After reset and load the history is empty and explains the machine, from the image that was loaded: memory holds the
last word the loader wrote at an address, 0 where it wrote none (R20, R39), and nothing has been emitted (R17). That
there is a history, and that it is empty here, is the model's choice (notes/assumptions/6.md). -/
def Obligations.HistoryExplainsResetState : Prop :=
  (∀ entry image other, (State.boot16 entry image).mach16.events = [] ∧
    StateExplained (imageWord image) other (State.boot16 entry image)) ∧
  (∀ entry image other, (State.boot8 entry image).mach8.events = [] ∧
    StateExplained other (imageWord image) (State.boot8 entry image))

/-! ### The step -/

/-- R72: a Running machine reads the word at `pc`, advances `pc` by 1, decodes the word, and runs the instruction. The
machine the instruction starts from differs from `m` in `pc`, the history, and the scratch registers, which hold the
next four free values (R70). -/
def Obligations.StepRunsDecodedInstruction : Prop :=
  (∀ m : Mach 16, m.status = .running → m.pc.toNat + 1 < 65536 →
    step (.of16 m) = exec (decode16 (m.wordAt m.pc)) (.of16 { m with
      pc := m.pc + 1#16
      in0 := Config.freeWord 16 m.draws
      in1 := Config.freeWord 16 (m.draws + 1)
      in2 := Config.freeWord 16 (m.draws + 2)
      out := Config.freeWord 16 (m.draws + 3)
      draws := m.draws + 4
      events := m.events ++ [.read m.pc (m.wordAt m.pc)] })) ∧
  (∀ m : Mach 8, m.status = .running → m.pc.toNat + 1 < 256 →
    step (.of8 m) = exec (decode8 (m.wordAt m.pc)) (.of8 { m with
      pc := m.pc + 1#8
      in0 := Config.freeWord 8 m.draws
      in1 := Config.freeWord 8 (m.draws + 1)
      in2 := Config.freeWord 8 (m.draws + 2)
      out := Config.freeWord 8 (m.draws + 3)
      draws := m.draws + 4
      events := m.events ++ [.read m.pc (m.wordAt m.pc)] }))

/-- R71: in the Halted and in the Faulted state a step request changes nothing. -/
def Obligations.StepChangesNothingUnlessRunning : Prop :=
  ∀ s, statusOf s = .halted ∨ statusOf s = .faulted → step s = .next s

/-- R14, R112: Halted and Faulted are terminal: no number of further step requests changes anything. -/
def Obligations.HaltedAndFaultedAreTerminal : Prop :=
  ∀ s n, isHalted s = true ∨ statusOf s = .faulted → core.run n s = .next s

/-- R73: fetching the opcode word from the last address faults, after the read, in both configurations, whatever the
word says (a `HALT` there does not halt). -/
def Obligations.OpcodeFetchAtLastAddressFaults : Prop :=
  (∀ m : Mach 16, m.status = .running → m.pc.toNat + 1 = 65536 →
    ∃ t, step (.of16 m) = .fault (.addressOverrun .pcAdvance 65536 (.of16 t)) ∧
      FaultLeaves m t .pcAdvance 65536 ∧ t.events = m.events ++ [.read m.pc (m.wordAt m.pc)]) ∧
  (∀ m : Mach 8, m.status = .running → m.pc.toNat + 1 = 256 →
    ∃ t, step (.of8 m) = .fault (.addressOverrun .pcAdvance 256 (.of8 t)) ∧
      FaultLeaves m t .pcAdvance 256 ∧ t.events = m.events ++ [.read m.pc (m.wordAt m.pc)])

/-- R73, R117: where an operand word lies at the last address, every instruction but the `HALT` of `CFG8` faults at its
fetch, and its own effect does not happen. The reads up to that word are in the history. -/
def Obligations.OperandFetchAtLastAddressFaults : Prop :=
  (∀ (i : Instr) (m : Mach 16), i.cfg = .cfg16 → ¬ m.Fits i.fields →
    ∃ t, exec i (.of16 m) = .fault (.addressOverrun .pcAdvance 65536 (.of16 t)) ∧
      FaultLeaves m t .pcAdvance 65536 ∧ t.events = m.events ++ m.streamReads (65536 - m.pc.toNat)) ∧
  (∀ (i : Instr) (m : Mach 8), i.cfg = .cfg8 → i.opcode ≠ 5 → ¬ m.Fits i.fields →
    ∃ t, exec i (.of8 m) = .fault (.addressOverrun .pcAdvance 256 (.of8 t)) ∧
      FaultLeaves m t .pcAdvance 256 ∧ t.events = m.events ++ m.streamReads (256 - m.pc.toNat))

/-- R61, R62: no word raises a refusal by being decoded or executed: a step of any state completes or overruns. -/
def Obligations.StepNeverRefuses : Prop :=
  ∀ s r, step s ≠ .refused r

/-- R111: only `PcAdvance` can be raised, at `MEMSIZE`, and only when a word of the instruction at `pc` is fetched from
the last address: the opcode word or an operand word lies there, and its read is the last access of the step. -/
def Obligations.OnlyPcAdvanceIsRaised : Prop :=
  (∀ (m : Mach 16) kind addr t, step (.of16 m) = .fault (.addressOverrun kind addr t) →
    kind = .pcAdvance ∧ addr = 65536 ∧
      ∃ u, t = .of16 u ∧ FaultsFetchingLastWord (decode16 (m.wordAt m.pc)).length m u) ∧
  (∀ (m : Mach 8) kind addr t, step (.of8 m) = .fault (.addressOverrun kind addr t) →
    kind = .pcAdvance ∧ addr = 256 ∧
      ∃ u, t = .of8 u ∧ FaultsFetchingLastWord (decode8 (m.wordAt m.pc)).length m u)

/-- R113: the only fault is `PcAdvance`, and a faulting step writes no memory, emits no byte and does not set `halted`;
the record is set and the machine is Faulted. Nothing is said of `pc` and the scratch registers. -/
def Obligations.FaultingStepHasNoEffect : Prop :=
  ∀ s kind addr t, step s = .fault (.addressOverrun kind addr t) →
    kind = .pcAdvance ∧ Related (fun _ m u => FaultLeaves m u kind addr) s t

/-- R1, R23: no step changes the configuration, whether it completes or faults. -/
def Obligations.ConfigurationNeverChanges : Prop :=
  (∀ s t, step s = .next t → t.cfg = s.cfg) ∧
    ∀ s kind addr t, step s = .fault (.addressOverrun kind addr t) → t.cfg = s.cfg

/-- R87: what a step that completes leaves: `pc` past the instruction or at the jump's target, at most the one word at
the write-address word changed and only if flagged, one more byte for `POKE` alone, `halted` set for `HALT` alone. -/
def Obligations.StepLeavesPcMemoryOutputHalted : Prop :=
  (∀ (m m1 t : Mach 16) (iw : Word 16), m.mem.wf → m.status = .running → m.fetchOpcode = .ok (iw, m1) →
    step (.of16 m) = .next (.of16 t) → StepLeaves (decode16 iw) m m1 t) ∧
  (∀ (m m1 t : Mach 8) (iw : Word 8), m.mem.wf → m.status = .running → m.fetchOpcode = .ok (iw, m1) →
    step (.of8 m) = .next (.of8 t) → StepLeaves (decode8 iw) m m1 t)

/-- R44: the number of memory accesses of a step that does not fault, the reads before the write: `1 + write_addr +
argc + read_addr0 + read_addr1` reads and `write_addr` writes, but 1 read and no write for a `CFG8` `HALT`; at most 7
reads in `CFG16` and 6 in `CFG8`. -/
def Obligations.StepAccessCount : Prop :=
  (∀ (m t : Mach 16) (f : Fields), m.status = .running → f = fields16 (m.wordAt m.pc) →
    step (.of16 m) = .next (.of16 t) →
      1 + f.writeAddr.toNat + f.argc.val + f.readAddr0.toNat + f.readAddr1.toNat ≤ 7 ∧
      AccessesAre m t (1 + f.writeAddr.toNat + f.argc.val + f.readAddr0.toNat + f.readAddr1.toNat)
        f.writeAddr.toNat) ∧
  (∀ (m t : Mach 8) (f : Fields), m.status = .running → f = fields8 (m.wordAt m.pc) →
    step (.of8 m) = .next (.of8 t) →
      if opcodeField8 (m.wordAt m.pc) = 5#4 then AccessesAre m t 1 0
      else
        1 + f.writeAddr.toNat + f.argc.val + f.readAddr0.toNat + f.readAddr1.toNat ≤ 6 ∧
        AccessesAre m t (1 + f.writeAddr.toNat + f.argc.val + f.readAddr0.toNat + f.readAddr1.toNat)
          f.writeAddr.toNat)

/-- R12, R13: registers do not survive a step. A step that reads no unloaded register has one outcome, whatever the
scratch registers held before it and whatever the free values are: memory, `pc`, `halted`, the output and the history
do not depend on them. -/
def Obligations.LoadedStepDoesNotDependOnDraws : Prop :=
  (∀ m u t : Mach 16, AgreeButDraws m u → UsesOnlyLoaded (decode16 (m.wordAt m.pc)) →
    step (.of16 m) = .next (.of16 t) → ∃ v, step (.of16 u) = .next (.of16 v) ∧
      (m.status = .running → AgreeButDraws t v)) ∧
  (∀ m u t : Mach 8, AgreeButDraws m u → UsesOnlyLoaded (decode8 (m.wordAt m.pc)) →
    step (.of8 m) = .next (.of8 t) → ∃ v, step (.of8 u) = .next (.of8 v) ∧
      (m.status = .running → AgreeButDraws t v))

/-! ### Invariants -/

/-- Every step keeps the invariant, whether it completes or faults: memory stays canonical and inside the address
space, the machine is never both Halted and Faulted, and the fault record is the one that can be raised. -/
def Obligations.StepKeepsInvariant : Prop :=
  ∀ s, StateInv s → (∀ t, step s = .next t → StateInv t) ∧
    ∀ kind addr t, step s = .fault (.addressOverrun kind addr t) → StateInv t

/-- Every step keeps the history explaining the machine (R17, R32, R33, R39): memory holds the latest writes over the
image, every read returned the latest write before it, the output is what was emitted. -/
def Obligations.StepKeepsHistoryExplained : Prop :=
  ∀ image16 image8 s, StateInv s → StateExplained image16 image8 s →
    (∀ t, step s = .next t → StateExplained image16 image8 t) ∧
    ∀ kind addr t, step s = .fault (.addressOverrun kind addr t) → StateExplained image16 image8 t

/-! ### Memory -/

/-- R32, R33: a write sets the one word and changes nothing else but the history, a later read returns it, a read
changes nothing but the history, and every address is below `MEMSIZE`. -/
def Obligations.MemReadReturnsWordWritten : Prop :=
  ∀ (w : Nat) (m : Mach w) (a v : Word w), m.mem.wf →
    a.toNat < memSize w ∧
    ((m.memWrite a v).memRead a).1 = v ∧ (∀ b, b ≠ a → (m.memWrite a v).wordAt b = m.wordAt b) ∧
    m.memWrite a v = { m with mem := (m.memWrite a v).mem, events := m.events ++ [.write a v] } ∧
    (m.memRead a).2 = { m with events := m.events ++ [.read a (m.wordAt a)] } ∧ (m.memRead a).1 = m.wordAt a

/-- Memories in canonical form that read alike at every address are equal. -/
def Obligations.CanonicalMemoryIsDeterminedByReads : Prop :=
  ∀ (w : Nat) (m n : Memory w), m.wf → n.wf → (∀ a : Word w, m.read a.toNat = n.read a.toNat) → m = n

/-- R41, R85: a word that a step writes at the address where it leaves `pc` is the opcode word of the next step. -/
def Obligations.NextStepRunsWordJustWritten : Prop :=
  (∀ (m m1 t : Mach 16) (iw : Word 16), m.mem.wf → m.status = .running → m.fetchOpcode = .ok (iw, m1) →
    step (.of16 m) = .next (.of16 t) → (fields16 iw).writeAddr = true → m1.writeAddrWord = t.pc →
    t.pc.toNat + 1 < 65536 → t.status = .running →
      ∃ t1, t.fetchOpcode = .ok (t.out, t1) ∧ step (.of16 t) = exec (decode16 t.out) (.of16 t1)) ∧
  (∀ (m m1 t : Mach 8) (iw : Word 8), m.mem.wf → m.status = .running → m.fetchOpcode = .ok (iw, m1) →
    step (.of8 m) = .next (.of8 t) → (fields8 iw).writeAddr = true → m1.writeAddrWord = t.pc →
    t.pc.toNat + 1 < 256 → t.status = .running →
      ∃ t1, t.fetchOpcode = .ok (t.out, t1) ∧ step (.of8 t) = exec (decode8 t.out) (.of8 t1))

/-! ### The instructions -/

/-- R90: opcode 0 is `NONE`; it does nothing but pass through the fetches, the dereferences and the write-back. -/
def Obligations.NoneCompletes : Prop :=
  (∀ iw : Word 16, opcodeField16 iw = 0#8 → decode16 iw = .none16 (fields16 iw)) ∧
  (∀ iw : Word 8, opcodeField8 iw = 0#4 → decode8 iw = .none8 (fields8 iw)) ∧
  ∀ f, Completes16 (.none16 f) (noneEffect f) ∧ Completes8 (.none8 f) (noneEffect f)

/-- R91: opcode 1 is `COPY`: `out <- operand0`. -/
def Obligations.CopyPutsOperandZeroInOut : Prop :=
  (∀ iw : Word 16, opcodeField16 iw = 1#8 → decode16 iw = .copy16 (fields16 iw)) ∧
  (∀ iw : Word 8, opcodeField8 iw = 1#4 → decode8 iw = .copy8 (fields8 iw)) ∧
  ∀ f, Completes16 (.copy16 f) (copyEffect f) ∧ Completes8 (.copy8 f) (copyEffect f)

/-- R92: opcode 2 is `ADD`: `out <- (operand0 + operand1) mod 2^W`. -/
def Obligations.AddPutsWrappedSumInOut : Prop :=
  (∀ iw : Word 16, opcodeField16 iw = 2#8 → decode16 iw = .add16 (fields16 iw)) ∧
  (∀ iw : Word 8, opcodeField8 iw = 2#4 → decode8 iw = .add8 (fields8 iw)) ∧
  ∀ f, Completes16 (.add16 f) (addEffect f) ∧ Completes8 (.add8 f) (addEffect f)

/-- R93: every opcode value from 6 up is unassigned and does exactly what `NONE` does, and completes as it does. -/
def Obligations.UnassignedIsExactlyNone : Prop :=
  (∀ iw : Word 16, 6 ≤ (opcodeField16 iw).toNat → ∀ s, exec (decode16 iw) s = exec (.none16 (fields16 iw)) s) ∧
  (∀ iw : Word 8, 6 ≤ (opcodeField8 iw).toNat → ∀ s, exec (decode8 iw) s = exec (.none8 (fields8 iw)) s) ∧
  ∀ f, (∀ x, Completes16 (.unassigned16At6 x f) (noneEffect f)) ∧
    (∀ x, Completes16 (.unassigned16At8 x f) (noneEffect f)) ∧
    (∀ x, Completes16 (.unassigned16At16 x f) (noneEffect f)) ∧
    (∀ x, Completes16 (.unassigned16At32 x f) (noneEffect f)) ∧
    (∀ x, Completes16 (.unassigned16At64 x f) (noneEffect f)) ∧
    (∀ x, Completes16 (.unassigned16At128 x f) (noneEffect f)) ∧
    (∀ x, Completes8 (.unassigned8At6 x f) (noneEffect f)) ∧
    (∀ x, Completes8 (.unassigned8At8 x f) (noneEffect f))

/-- R100: opcode 3 is `JUMP_IF_ZERO`: if `operand1 = 0` then `pc <- operand0`, else `pc` past the instruction. -/
def Obligations.JumpIfZeroSetsPc : Prop :=
  (∀ iw : Word 16, opcodeField16 iw = 3#8 → decode16 iw = .jumpIfZero16 (fields16 iw)) ∧
  (∀ iw : Word 8, opcodeField8 iw = 3#4 → decode8 iw = .jumpIfZero8 (fields8 iw)) ∧
  ∀ f, Completes16 (.jumpIfZero16 f) (jumpEffect f) ∧ Completes8 (.jumpIfZero8 f) (jumpEffect f)

/-- R101: opcode 4 is `POKE`: the low byte of `operand1` is emitted. -/
def Obligations.PokeEmitsLowByte : Prop :=
  (∀ iw : Word 16, opcodeField16 iw = 4#8 → decode16 iw = .poke16 (fields16 iw)) ∧
  (∀ iw : Word 8, opcodeField8 iw = 4#4 → decode8 iw = .poke8 (fields8 iw)) ∧
  ∀ f, Completes16 (.poke16 f) (pokeEffect f) ∧ Completes8 (.poke8 f) (pokeEffect f)

/-- R102: opcode 5 of `CFG16` is `HALT` through the general path: the operand words are consumed, `halted` is set, and
the write-back is done if flagged. Where a word of it overruns, the step faults and `halted` is not set. -/
def Obligations.HaltOfCfg16SetsHalted : Prop :=
  (∀ iw : Word 16, opcodeField16 iw = 5#8 → decode16 iw = .halt16 (fields16 iw)) ∧
  (∀ f, Completes16 (.halt16 f) (haltEffect f)) ∧
  ∀ (f : Fields) (m : Mach 16), ¬ m.Fits f →
    ∃ t, exec (.halt16 f) (.of16 m) = .fault (.addressOverrun .pcAdvance 65536 (.of16 t)) ∧ t.halted = m.halted

/-- R103, R74: opcode 5 of `CFG8` is `HALT`; whatever its fields say it sets `halted` and changes nothing else: no
further word is fetched and nothing is stored. All sixteen words behave alike. At the last address it faults instead. -/
def Obligations.HaltOfCfg8ReturnsAtOnce : Prop :=
  (∀ iw : Word 8, opcodeField8 iw = 5#4 → decode8 iw = .halt8 (fields8 iw)) ∧
  (∀ (f : Fields) (m : Mach 8), exec (.halt8 f) (.of8 m) = .next (.of8 { m with halted := true })) ∧
  (∀ m : Mach 8, m.status = .running → m.pc.toNat + 1 < 256 → opcodeField8 (m.wordAt m.pc) = 5#4 →
    ∃ t, step (.of8 m) = .next (.of8 t) ∧ t.halted = true ∧ t.pc.toNat = m.pc.toNat + 1 ∧ t.mem = m.mem ∧
      t.outStream = m.outStream ∧ t.events = m.events ++ [.read m.pc (m.wordAt m.pc)]) ∧
  (∀ m : Mach 8, m.status = .running → m.pc.toNat + 1 = 256 → opcodeField8 (m.wordAt m.pc) = 5#4 →
    ∃ t, step (.of8 m) = .fault (.addressOverrun .pcAdvance 256 (.of8 t)) ∧ t.halted = false)

/-- A single `HALT` word halts after one step, with no output and memory as it was, in both configurations. -/
def Obligations.HaltWordHaltsInOneStep : Prop :=
  (∀ m : Mach 16, m.status = .running → m.pc.toNat + 1 < 65536 → m.wordAt m.pc = 0x0005#16 →
    ∃ t, step (.of16 m) = .next (.of16 t) ∧ t.status = .halted ∧ t.mem = m.mem ∧ t.outStream = m.outStream ∧
      t.pc.toNat = m.pc.toNat + 1) ∧
  (∀ m : Mach 8, m.status = .running → m.pc.toNat + 1 < 256 → m.wordAt m.pc = 0x05#8 →
    ∃ t, step (.of8 m) = .next (.of8 t) ∧ t.status = .halted ∧ t.mem = m.mem ∧ t.outStream = m.outStream ∧
      t.pc.toNat = m.pc.toNat + 1)

/-- R66: `JUMP #t`, which is `JUMP_IF_ZERO #t, #0`, jumps from anywhere to any `t`. -/
def Obligations.UnconditionalJumpGoesToTarget : Prop :=
  (∀ (m : Mach 16) (target : Word 16), m.status = .running → m.pc.toNat + 3 < 65536 →
    m.wordAt m.pc = 0x1003#16 → m.wordAt (m.pc + 1#16) = target → m.wordAt (m.pc + 2#16) = 0#16 →
      ∃ t, step (.of16 m) = .next (.of16 t) ∧ t.pc = target ∧ t.mem = m.mem ∧ t.outStream = m.outStream) ∧
  (∀ (m : Mach 8) (target : Word 8), m.status = .running → m.pc.toNat + 3 < 256 →
    m.wordAt m.pc = 0x83#8 → m.wordAt (m.pc + 1#8) = target → m.wordAt (m.pc + 2#8) = 0#8 →
      ∃ t, step (.of8 m) = .next (.of8 t) ∧ t.pc = target ∧ t.mem = m.mem ∧ t.outStream = m.outStream)

/-- The model's own choice (notes/assumptions/1.md): an instruction of the other configuration is refused by name. No
step meets this, by StepNeverRefuses. -/
def Obligations.OtherConfigurationIsRefused : Prop :=
  (∀ (i : Instr) (m : Mach 8), i.cfg = .cfg16 → exec i (.of8 m) = .refused .wrongConfiguration) ∧
  (∀ (i : Instr) (m : Mach 16), i.cfg = .cfg8 → exec i (.of16 m) = .refused .wrongConfiguration)

/-! ### Frames -/

/-- `NONE` and the unassigned opcodes change `pc`, the registers they load or dereference, and the word at the
write-address word if flagged; all else is as it was. -/
def Obligations.NoneAndUnassignedFrame : Prop :=
  ∀ f, Frames16 (.none16 f) KeepsOutHaltedStream ∧
    (∀ x, Frames16 (.unassigned16At6 x f) KeepsOutHaltedStream) ∧
    (∀ x, Frames16 (.unassigned16At8 x f) KeepsOutHaltedStream) ∧
    (∀ x, Frames16 (.unassigned16At16 x f) KeepsOutHaltedStream) ∧
    (∀ x, Frames16 (.unassigned16At32 x f) KeepsOutHaltedStream) ∧
    (∀ x, Frames16 (.unassigned16At64 x f) KeepsOutHaltedStream) ∧
    (∀ x, Frames16 (.unassigned16At128 x f) KeepsOutHaltedStream) ∧
    Frames8 (.none8 f) KeepsOutHaltedStream ∧
    (∀ x, Frames8 (.unassigned8At6 x f) KeepsOutHaltedStream) ∧
    (∀ x, Frames8 (.unassigned8At8 x f) KeepsOutHaltedStream)

/-- `COPY` and `ADD` change `pc`, `out`, the registers they load or dereference, and the word at the write-address word
if flagged; all else is as it was. -/
def Obligations.CopyAndAddFrame : Prop :=
  ∀ f, Frames16 (.copy16 f) KeepsHaltedStream ∧ Frames16 (.add16 f) KeepsHaltedStream ∧
    Frames8 (.copy8 f) KeepsHaltedStream ∧ Frames8 (.add8 f) KeepsHaltedStream

/-- `JUMP_IF_ZERO` changes `pc`, the registers it loads or dereferences, and the word at the write-address word if
flagged; all else is as it was. -/
def Obligations.JumpIfZeroFrame : Prop :=
  ∀ f, Frames16 (.jumpIfZero16 f) KeepsOutHaltedStream ∧ Frames8 (.jumpIfZero8 f) KeepsOutHaltedStream

/-- `POKE` changes the output stream besides; all else is as it was. -/
def Obligations.PokeFrame : Prop :=
  ∀ f, Frames16 (.poke16 f) KeepsOutHalted ∧ Frames8 (.poke8 f) KeepsOutHalted

/-- `HALT` of `CFG16` changes `halted` besides; that of `CFG8` changes `halted` alone. -/
def Obligations.HaltFrame : Prop :=
  ∀ f, Frames16 (.halt16 f) KeepsOutStream ∧
    ∀ (m : Mach 8) (s : State), exec (.halt8 f) (.of8 m) = .next s →
      ∃ t, s = .of8 t ∧ t = { m with halted := t.halted }

/-! ### The end of a run -/

/-- R134: a run ends at most once and in one way: at most one normal end, its state the one result; at most one end in a
fault, with one fault; and not both. -/
def Obligations.RunEndsAtMostOnce : Prop :=
  (∀ s k t k' t', EndsNormally s k t → EndsNormally s k' t' → k = k' ∧ t = t') ∧
  (∀ s j r j' r', EndsInFault s j r → EndsInFault s j' r' → j = j' ∧ r = r') ∧
    ∀ s k t j r, EndsNormally s k t → ¬ EndsInFault s j r

/-- R62, R134: a run is safe exactly if it does not end in a fault: nothing else stops it. -/
def Obligations.RunIsSafeUnlessItFaults : Prop :=
  ∀ s, SafeRun s ↔ ∀ k r, ¬ EndsInFault s k r
end

