-- ==== Sys2Proof/Laws/State.lean ====
section
/-! SUPPORT. One lemma per field per update of the machine's state, true by unfolding the update once, so that no later
proof unfolds one. -/

namespace Sys2Proof.Machine

variable {w : Nat} (m : Mach w)

/-! ### setPc -/

@[simp] theorem Mach.setPc_mem (v : Word w) : (m.setPc v).mem = m.mem := rfl
@[simp] theorem Mach.setPc_pc (v : Word w) : (m.setPc v).pc = v := rfl
@[simp] theorem Mach.setPc_in0 (v : Word w) : (m.setPc v).in0 = m.in0 := rfl
@[simp] theorem Mach.setPc_in1 (v : Word w) : (m.setPc v).in1 = m.in1 := rfl
@[simp] theorem Mach.setPc_in2 (v : Word w) : (m.setPc v).in2 = m.in2 := rfl
@[simp] theorem Mach.setPc_out (v : Word w) : (m.setPc v).out = m.out := rfl
@[simp] theorem Mach.setPc_halted (v : Word w) : (m.setPc v).halted = m.halted := rfl
@[simp] theorem Mach.setPc_fault (v : Word w) : (m.setPc v).fault = m.fault := rfl
@[simp] theorem Mach.setPc_outStream (v : Word w) : (m.setPc v).outStream = m.outStream := rfl
@[simp] theorem Mach.setPc_draws (v : Word w) : (m.setPc v).draws = m.draws := rfl
@[simp] theorem Mach.setPc_events (v : Word w) : (m.setPc v).events = m.events := rfl
@[simp] theorem Mach.setPc_wordAt (v : Word w) (c : Word w) : (m.setPc v).wordAt c = m.wordAt c := rfl

/-! ### setIn0 -/

@[simp] theorem Mach.setIn0_mem (v : Word w) : (m.setIn0 v).mem = m.mem := rfl
@[simp] theorem Mach.setIn0_pc (v : Word w) : (m.setIn0 v).pc = m.pc := rfl
@[simp] theorem Mach.setIn0_in0 (v : Word w) : (m.setIn0 v).in0 = v := rfl
@[simp] theorem Mach.setIn0_in1 (v : Word w) : (m.setIn0 v).in1 = m.in1 := rfl
@[simp] theorem Mach.setIn0_in2 (v : Word w) : (m.setIn0 v).in2 = m.in2 := rfl
@[simp] theorem Mach.setIn0_out (v : Word w) : (m.setIn0 v).out = m.out := rfl
@[simp] theorem Mach.setIn0_halted (v : Word w) : (m.setIn0 v).halted = m.halted := rfl
@[simp] theorem Mach.setIn0_fault (v : Word w) : (m.setIn0 v).fault = m.fault := rfl
@[simp] theorem Mach.setIn0_outStream (v : Word w) : (m.setIn0 v).outStream = m.outStream := rfl
@[simp] theorem Mach.setIn0_draws (v : Word w) : (m.setIn0 v).draws = m.draws := rfl
@[simp] theorem Mach.setIn0_events (v : Word w) : (m.setIn0 v).events = m.events := rfl
@[simp] theorem Mach.setIn0_wordAt (v : Word w) (c : Word w) : (m.setIn0 v).wordAt c = m.wordAt c := rfl

/-! ### setIn1 -/

@[simp] theorem Mach.setIn1_mem (v : Word w) : (m.setIn1 v).mem = m.mem := rfl
@[simp] theorem Mach.setIn1_pc (v : Word w) : (m.setIn1 v).pc = m.pc := rfl
@[simp] theorem Mach.setIn1_in0 (v : Word w) : (m.setIn1 v).in0 = m.in0 := rfl
@[simp] theorem Mach.setIn1_in1 (v : Word w) : (m.setIn1 v).in1 = v := rfl
@[simp] theorem Mach.setIn1_in2 (v : Word w) : (m.setIn1 v).in2 = m.in2 := rfl
@[simp] theorem Mach.setIn1_out (v : Word w) : (m.setIn1 v).out = m.out := rfl
@[simp] theorem Mach.setIn1_halted (v : Word w) : (m.setIn1 v).halted = m.halted := rfl
@[simp] theorem Mach.setIn1_fault (v : Word w) : (m.setIn1 v).fault = m.fault := rfl
@[simp] theorem Mach.setIn1_outStream (v : Word w) : (m.setIn1 v).outStream = m.outStream := rfl
@[simp] theorem Mach.setIn1_draws (v : Word w) : (m.setIn1 v).draws = m.draws := rfl
@[simp] theorem Mach.setIn1_events (v : Word w) : (m.setIn1 v).events = m.events := rfl
@[simp] theorem Mach.setIn1_wordAt (v : Word w) (c : Word w) : (m.setIn1 v).wordAt c = m.wordAt c := rfl

/-! ### setIn2 -/

@[simp] theorem Mach.setIn2_mem (v : Word w) : (m.setIn2 v).mem = m.mem := rfl
@[simp] theorem Mach.setIn2_pc (v : Word w) : (m.setIn2 v).pc = m.pc := rfl
@[simp] theorem Mach.setIn2_in0 (v : Word w) : (m.setIn2 v).in0 = m.in0 := rfl
@[simp] theorem Mach.setIn2_in1 (v : Word w) : (m.setIn2 v).in1 = m.in1 := rfl
@[simp] theorem Mach.setIn2_in2 (v : Word w) : (m.setIn2 v).in2 = v := rfl
@[simp] theorem Mach.setIn2_out (v : Word w) : (m.setIn2 v).out = m.out := rfl
@[simp] theorem Mach.setIn2_halted (v : Word w) : (m.setIn2 v).halted = m.halted := rfl
@[simp] theorem Mach.setIn2_fault (v : Word w) : (m.setIn2 v).fault = m.fault := rfl
@[simp] theorem Mach.setIn2_outStream (v : Word w) : (m.setIn2 v).outStream = m.outStream := rfl
@[simp] theorem Mach.setIn2_draws (v : Word w) : (m.setIn2 v).draws = m.draws := rfl
@[simp] theorem Mach.setIn2_events (v : Word w) : (m.setIn2 v).events = m.events := rfl
@[simp] theorem Mach.setIn2_wordAt (v : Word w) (c : Word w) : (m.setIn2 v).wordAt c = m.wordAt c := rfl

/-! ### setOut -/

@[simp] theorem Mach.setOut_mem (v : Word w) : (m.setOut v).mem = m.mem := rfl
@[simp] theorem Mach.setOut_pc (v : Word w) : (m.setOut v).pc = m.pc := rfl
@[simp] theorem Mach.setOut_in0 (v : Word w) : (m.setOut v).in0 = m.in0 := rfl
@[simp] theorem Mach.setOut_in1 (v : Word w) : (m.setOut v).in1 = m.in1 := rfl
@[simp] theorem Mach.setOut_in2 (v : Word w) : (m.setOut v).in2 = m.in2 := rfl
@[simp] theorem Mach.setOut_out (v : Word w) : (m.setOut v).out = v := rfl
@[simp] theorem Mach.setOut_halted (v : Word w) : (m.setOut v).halted = m.halted := rfl
@[simp] theorem Mach.setOut_fault (v : Word w) : (m.setOut v).fault = m.fault := rfl
@[simp] theorem Mach.setOut_outStream (v : Word w) : (m.setOut v).outStream = m.outStream := rfl
@[simp] theorem Mach.setOut_draws (v : Word w) : (m.setOut v).draws = m.draws := rfl
@[simp] theorem Mach.setOut_events (v : Word w) : (m.setOut v).events = m.events := rfl
@[simp] theorem Mach.setOut_wordAt (v : Word w) (c : Word w) : (m.setOut v).wordAt c = m.wordAt c := rfl

/-! ### setHalted -/

@[simp] theorem Mach.setHalted_mem : (m.setHalted).mem = m.mem := rfl
@[simp] theorem Mach.setHalted_pc : (m.setHalted).pc = m.pc := rfl
@[simp] theorem Mach.setHalted_in0 : (m.setHalted).in0 = m.in0 := rfl
@[simp] theorem Mach.setHalted_in1 : (m.setHalted).in1 = m.in1 := rfl
@[simp] theorem Mach.setHalted_in2 : (m.setHalted).in2 = m.in2 := rfl
@[simp] theorem Mach.setHalted_out : (m.setHalted).out = m.out := rfl
@[simp] theorem Mach.setHalted_halted : (m.setHalted).halted = true := rfl
@[simp] theorem Mach.setHalted_fault : (m.setHalted).fault = m.fault := rfl
@[simp] theorem Mach.setHalted_outStream : (m.setHalted).outStream = m.outStream := rfl
@[simp] theorem Mach.setHalted_draws : (m.setHalted).draws = m.draws := rfl
@[simp] theorem Mach.setHalted_events : (m.setHalted).events = m.events := rfl
@[simp] theorem Mach.setHalted_wordAt (c : Word w) : (m.setHalted).wordAt c = m.wordAt c := rfl

/-! ### log -/

@[simp] theorem Mach.log_mem (e : Event w) : (m.log e).mem = m.mem := rfl
@[simp] theorem Mach.log_pc (e : Event w) : (m.log e).pc = m.pc := rfl
@[simp] theorem Mach.log_in0 (e : Event w) : (m.log e).in0 = m.in0 := rfl
@[simp] theorem Mach.log_in1 (e : Event w) : (m.log e).in1 = m.in1 := rfl
@[simp] theorem Mach.log_in2 (e : Event w) : (m.log e).in2 = m.in2 := rfl
@[simp] theorem Mach.log_out (e : Event w) : (m.log e).out = m.out := rfl
@[simp] theorem Mach.log_halted (e : Event w) : (m.log e).halted = m.halted := rfl
@[simp] theorem Mach.log_fault (e : Event w) : (m.log e).fault = m.fault := rfl
@[simp] theorem Mach.log_outStream (e : Event w) : (m.log e).outStream = m.outStream := rfl
@[simp] theorem Mach.log_draws (e : Event w) : (m.log e).draws = m.draws := rfl
@[simp] theorem Mach.log_events (e : Event w) : (m.log e).events = m.events ++ [e] := rfl
@[simp] theorem Mach.log_wordAt (e : Event w) (c : Word w) : (m.log e).wordAt c = m.wordAt c := rfl

/-! ### memWrite -/

@[simp] theorem Mach.memWrite_mem (a v : Word w) : (m.memWrite a v).mem = m.mem.write a.toNat v := rfl
@[simp] theorem Mach.memWrite_pc (a v : Word w) : (m.memWrite a v).pc = m.pc := rfl
@[simp] theorem Mach.memWrite_in0 (a v : Word w) : (m.memWrite a v).in0 = m.in0 := rfl
@[simp] theorem Mach.memWrite_in1 (a v : Word w) : (m.memWrite a v).in1 = m.in1 := rfl
@[simp] theorem Mach.memWrite_in2 (a v : Word w) : (m.memWrite a v).in2 = m.in2 := rfl
@[simp] theorem Mach.memWrite_out (a v : Word w) : (m.memWrite a v).out = m.out := rfl
@[simp] theorem Mach.memWrite_halted (a v : Word w) : (m.memWrite a v).halted = m.halted := rfl
@[simp] theorem Mach.memWrite_fault (a v : Word w) : (m.memWrite a v).fault = m.fault := rfl
@[simp] theorem Mach.memWrite_outStream (a v : Word w) : (m.memWrite a v).outStream = m.outStream := rfl
@[simp] theorem Mach.memWrite_draws (a v : Word w) : (m.memWrite a v).draws = m.draws := rfl
@[simp] theorem Mach.memWrite_events (a v : Word w) : (m.memWrite a v).events = m.events ++ [.write a v] := rfl

/-! ### emit -/

@[simp] theorem Mach.emit_mem (b : Byte) : (m.emit b).mem = m.mem := rfl
@[simp] theorem Mach.emit_pc (b : Byte) : (m.emit b).pc = m.pc := rfl
@[simp] theorem Mach.emit_in0 (b : Byte) : (m.emit b).in0 = m.in0 := rfl
@[simp] theorem Mach.emit_in1 (b : Byte) : (m.emit b).in1 = m.in1 := rfl
@[simp] theorem Mach.emit_in2 (b : Byte) : (m.emit b).in2 = m.in2 := rfl
@[simp] theorem Mach.emit_out (b : Byte) : (m.emit b).out = m.out := rfl
@[simp] theorem Mach.emit_halted (b : Byte) : (m.emit b).halted = m.halted := rfl
@[simp] theorem Mach.emit_fault (b : Byte) : (m.emit b).fault = m.fault := rfl
@[simp] theorem Mach.emit_outStream (b : Byte) : (m.emit b).outStream = m.outStream ++ [b] := rfl
@[simp] theorem Mach.emit_draws (b : Byte) : (m.emit b).draws = m.draws := rfl
@[simp] theorem Mach.emit_events (b : Byte) : (m.emit b).events = m.events ++ [.emit b] := rfl
@[simp] theorem Mach.emit_wordAt (b : Byte) (c : Word w) : (m.emit b).wordAt c = m.wordAt c := rfl

/-! ### beginStep -/

@[simp] theorem Mach.beginStep_mem : (m.beginStep).mem = m.mem := rfl
@[simp] theorem Mach.beginStep_pc : (m.beginStep).pc = m.pc := rfl
@[simp] theorem Mach.beginStep_in0 : (m.beginStep).in0 = Config.freeWord w m.draws := rfl
@[simp] theorem Mach.beginStep_in1 : (m.beginStep).in1 = Config.freeWord w (m.draws + 1) := rfl
@[simp] theorem Mach.beginStep_in2 : (m.beginStep).in2 = Config.freeWord w (m.draws + 2) := rfl
@[simp] theorem Mach.beginStep_out : (m.beginStep).out = Config.freeWord w (m.draws + 3) := rfl
@[simp] theorem Mach.beginStep_halted : (m.beginStep).halted = m.halted := rfl
@[simp] theorem Mach.beginStep_fault : (m.beginStep).fault = m.fault := rfl
@[simp] theorem Mach.beginStep_outStream : (m.beginStep).outStream = m.outStream := rfl
@[simp] theorem Mach.beginStep_draws : (m.beginStep).draws = m.draws + 4 := rfl
@[simp] theorem Mach.beginStep_events : (m.beginStep).events = m.events := rfl
@[simp] theorem Mach.beginStep_wordAt (c : Word w) : (m.beginStep).wordAt c = m.wordAt c := rfl

/-! ### raiseOverrun -/

variable (kind : OverrunKind) (addr : BitVec (w + 1))

@[simp] theorem Mach.raiseOverrun_record : (m.raiseOverrun kind addr).1 = ⟨kind, addr⟩ := rfl
@[simp] theorem Mach.raiseOverrun_mem : (m.raiseOverrun kind addr).2.mem = m.mem := rfl
@[simp] theorem Mach.raiseOverrun_halted : (m.raiseOverrun kind addr).2.halted = m.halted := rfl
@[simp] theorem Mach.raiseOverrun_fault : (m.raiseOverrun kind addr).2.fault = some ⟨kind, addr⟩ := rfl
@[simp] theorem Mach.raiseOverrun_outStream : (m.raiseOverrun kind addr).2.outStream = m.outStream := rfl
@[simp] theorem Mach.raiseOverrun_draws : (m.raiseOverrun kind addr).2.draws = m.draws + 5 := rfl
@[simp] theorem Mach.raiseOverrun_events : (m.raiseOverrun kind addr).2.events = m.events := rfl
@[simp] theorem Mach.raiseOverrun_wordAt (c : Word w) : (m.raiseOverrun kind addr).2.wordAt c = m.wordAt c := rfl

end Sys2Proof.Machine
end

