-- ==== Sys2Proof/Laws/Memory.lean ====
section
/-! SUPPORT. The laws of memory: read after write, the canonical form, and that equal reading is equal data. -/

namespace Sys2Proof.Machine

variable {w : Nat}

/-! ### Reading after a write -/

@[simp] theorem Memory.read_nil (a : Nat) : Memory.read ([] : Memory w) a = 0#w := rfl

theorem Memory.read_cons (b : Nat) (u : Word w) (rest : Memory w) (a : Nat) :
    Memory.read ((b, u) :: rest) a = if b = a then u else Memory.read rest a := rfl

/-- An address below every listed one reads as zero. -/
theorem Memory.read_below {m : Memory w} {a : Nat} (h : ∀ c ∈ m, a < c.1) : m.read a = 0#w := by
  induction m with
  | nil => rfl
  | cons c rest ih =>
    have hc := h c (by simp)
    rw [Memory.read_cons, if_neg (by omega), ih fun d hd => h d (by simp [hd])]

/-- What a write leaves at every address (R33); the entries need only rise. -/
theorem Memory.read_write {m : Memory w} (hm : m.Pairwise (fun c d => c.1 < d.1)) (a : Nat) (v : Word w) (b : Nat) :
    (m.write a v).read b = if b = a then v else m.read b := by
  induction m with
  | nil =>
    by_cases hv : v = 0#w
    · simp [Memory.write, hv]
    · simp [Memory.write, hv, Memory.read_cons, eq_comm]
  | cons c rest ih =>
    obtain ⟨k, u⟩ := c
    obtain ⟨hk, hrest⟩ := List.pairwise_cons.mp hm
    have below : ∀ n < k, Memory.read ((k, u) :: rest) n = 0#w := fun n hn =>
      Memory.read_below fun d hd => by
        rcases List.mem_cons.mp hd with rfl | hd
        · exact hn
        · exact hn.trans (hk d hd)
    by_cases hb : b = a
    · subst hb
      rw [if_pos rfl, Memory.write]
      split_ifs with hlt hv heq hv
      · exact hv ▸ below b hlt
      · rw [Memory.read_cons, if_pos rfl]
      · exact hv ▸ Memory.read_below fun d hd => heq ▸ hk d hd
      · rw [Memory.read_cons, if_pos rfl]
      · rw [Memory.read_cons, if_neg (Ne.symm heq), ih hrest, if_pos rfl]
    · rw [if_neg hb, Memory.write]
      split_ifs with hlt hv heq hv
      · rfl
      · rw [Memory.read_cons, if_neg (Ne.symm hb)]
      · rw [Memory.read_cons, if_neg (heq ▸ Ne.symm hb)]
      · rw [Memory.read_cons, Memory.read_cons, if_neg (Ne.symm hb), if_neg (heq ▸ Ne.symm hb)]
      · rw [Memory.read_cons, Memory.read_cons, ih hrest, if_neg hb]

/-! ### The canonical form -/

theorem Memory.wf_nil : Memory.wf ([] : Memory w) := by simp [Memory.wf]

/-- An entry of a written memory is the written one or an old one. -/
theorem Memory.mem_write {m : Memory w} {a : Nat} {v : Word w} {c : Nat × Word w} (h : c ∈ m.write a v) :
    (c = (a, v) ∧ v ≠ 0#w) ∨ c ∈ m := by
  induction m with
  | nil =>
    rw [Memory.write] at h
    split_ifs at h with hv
    · simp at h
    · exact .inl ⟨by simpa using h, hv⟩
  | cons d rest ih =>
    obtain ⟨k, u⟩ := d
    rw [Memory.write] at h
    split_ifs at h with hlt hv heq hv
    · exact .inr h
    · rcases List.mem_cons.mp h with rfl | h
      · exact .inl ⟨rfl, hv⟩
      · exact .inr h
    · exact .inr (List.mem_cons_of_mem _ h)
    · rcases List.mem_cons.mp h with rfl | h
      · exact .inl ⟨rfl, hv⟩
      · exact .inr (List.mem_cons_of_mem _ h)
    · rcases List.mem_cons.mp h with rfl | h
      · exact .inr (by simp)
      · exact (ih h).imp_right (List.mem_cons_of_mem _)

/-- A write inside the address space keeps the canonical form. -/
theorem Memory.wf_write {m : Memory w} (hm : m.wf) {a : Nat} (ha : a < memSize w) (v : Word w) :
    (m.write a v).wf := by
  refine ⟨?_, fun c hc => ?_⟩
  · have hp := hm.1
    clear hm
    induction m with
    | nil =>
      rw [Memory.write]
      split_ifs <;> simp
    | cons d rest ih =>
      obtain ⟨k, u⟩ := d
      obtain ⟨hk, hrest⟩ := List.pairwise_cons.mp hp
      rw [Memory.write]
      split_ifs with hlt hv heq hv
      · exact hp
      · refine List.pairwise_cons.mpr ⟨fun d hd => ?_, hp⟩
        rcases List.mem_cons.mp hd with rfl | hd
        · exact hlt
        · have := hk d hd
          simp only at this ⊢
          omega
      · exact hrest
      · exact List.pairwise_cons.mpr ⟨fun d hd => heq ▸ hk d hd, hrest⟩
      · refine List.pairwise_cons.mpr ⟨fun d hd => ?_, ih hrest⟩
        rcases Memory.mem_write hd with ⟨rfl, -⟩ | hd
        · simp only
          omega
        · exact hk d hd
  · rcases Memory.mem_write hc with ⟨rfl, hv⟩ | hc
    · exact ⟨ha, hv⟩
    · exact hm.2 c hc

/-- The loader's writes keep the canonical form. -/
theorem Memory.wf_load {m : Memory w} (hm : m.wf) (image : List (Word w × Word w)) : (m.load image).wf := by
  induction image generalizing m with
  | nil => exact hm
  | cons c rest ih => exact ih (Memory.wf_write hm c.1.isLt c.2)

/-- What a load leaves at every address: the last word the loader wrote there, else what was there. -/
theorem Memory.read_load {m : Memory w} (hm : m.wf) (image : List (Word w × Word w)) (a : Word w) :
    (m.load image).read a.toNat =
      match image.reverse.find? (fun c => c.1 = a) with
      | some c => c.2
      | none => m.read a.toNat := by
  induction image generalizing m with
  | nil => rfl
  | cons c rest ih =>
    have hload : m.load (c :: rest) = (m.write c.1.toNat c.2).load rest := rfl
    rw [hload, ih (Memory.wf_write hm c.1.isLt c.2), List.reverse_cons, List.find?_append]
    cases rest.reverse.find? (fun c => c.1 = a) with
    | some d => rfl
    | none =>
      by_cases hc : c.1 = a
      · simp [Memory.read_write hm.1, hc]
      · have hn : a.toNat ≠ c.1.toNat := fun h => hc (BitVec.eq_of_toNat_eq h.symm)
        simp [Memory.read_write hm.1, hc, hn]

/-- Placing words keeps the canonical form. -/
theorem Memory.wf_place {m : Memory w} (hm : m.wf) (a : Nat) (vs : List (Word w)) : (m.place a vs).wf := by
  induction vs generalizing m a with
  | nil => exact hm
  | cons v vs ih =>
    rw [Memory.place]
    split_ifs with ha
    · exact ih (Memory.wf_write hm ha v) (a + 1)
    · exact hm

theorem Memory.wf_reset : State.reset.mach16.mem.wf := Memory.wf_nil

/-- The first entry of a canonical memory reads as itself, which is not zero. -/
theorem Memory.read_head_ne_zero {c : Nat × Word w} {rest : Memory w} (h : Memory.wf (c :: rest)) :
    Memory.read (c :: rest) c.1 ≠ 0#w := by
  obtain ⟨k, u⟩ := c
  rw [Memory.read_cons, if_pos rfl]
  exact (h.2 (k, u) (by simp)).2

theorem Memory.wf_tail {c : Nat × Word w} {rest : Memory w} (h : Memory.wf (c :: rest)) : Memory.wf rest :=
  ⟨(List.pairwise_cons.mp h.1).2, fun d hd => h.2 d (by simp [hd])⟩

/-! ### Words of the machine -/

theorem Mach.wordAt_memWrite {m : Mach w} (hm : m.mem.wf) (a v c : Word w) :
    (m.memWrite a v).wordAt c = if c = a then v else m.wordAt c := by
  simp only [Mach.wordAt, Mach.memWrite_mem, Memory.read_write hm.1, BitVec.toNat_inj]

end Sys2Proof.Machine
end

