-- ==== Sys2Proof/Laws/Datapath.lean ====
section
/-! SUPPORT. What a fetch and the common datapath of a step come to, said once: with all words of the instruction below
the last address, the closed form of R57, R76 and R77; otherwise the overrun of R73. -/

namespace Sys2Proof.Machine

variable {w : Nat}

/-! ### One fetch -/

/-- Where `pc` is not at the last address, a fetch answers the word at `pc`. -/
theorem Mach.fetch_ok {m : Mach w} (h : m.pc.toNat + 1 < memSize w) :
    m.fetch = .ok (m.wordAt m.pc, (m.log (.read m.pc (m.wordAt m.pc))).setPc (m.pc + 1#w)) := by
  simp [Mach.fetch, Mach.advancePc, Mach.memRead, h]

/-- At the last address a fetch overruns, after the read (R73). -/
theorem Mach.fetch_overrun {m : Mach w} (h : ¬ m.pc.toNat + 1 < memSize w) :
    m.fetch = .error ((m.log (.read m.pc (m.wordAt m.pc))).raiseOverrun .pcAdvance
      (BitVec.ofNat (w + 1) (memSize w))) := by
  have h1 : m.pc.toNat + 1 = memSize w := by
    have := m.pc.isLt
    simp only [memSize] at h ⊢
    omega
  simp [Mach.fetch, Mach.advancePc, Mach.memRead, h1]

/-! ### The machine part way through its operand words -/

/-- The machine with `n` operand words fetched and the input registers as given. -/
def Mach.fetched (m : Mach w) (n : Nat) (i0 i1 i2 : Word w) : Mach w :=
  { m with pc := m.pc + BitVec.ofNat w n, in0 := i0, in1 := i1, in2 := i2, events := m.events ++ m.streamReads n }

/-- The fault of a step that meets the last address: the reads up to it are in the history, and nothing else is
kept of the step (R113). -/
def Mach.overrun (m : Mach w) : Overrun w × Mach w :=
  Mach.raiseOverrun { m with events := m.events ++ m.streamReads (memSize w - m.pc.toNat) } .pcAdvance
    (BitVec.ofNat (w + 1) (memSize w))

theorem Mach.toNat_add_ofNat {p : Word w} {n : Nat} (h : p.toNat + n < memSize w) :
    (p + BitVec.ofNat w n).toNat = p.toNat + n := by
  rw [BitVec.toNat_add, BitVec.toNat_ofNat, Nat.add_mod_mod]
  exact Nat.mod_eq_of_lt h

theorem Mach.add_ofNat_succ (p : Word w) (n : Nat) :
    p + BitVec.ofNat w n + 1#w = p + BitVec.ofNat w (n + 1) := by
  rw [BitVec.ofNat_add, BitVec.add_assoc]

theorem Mach.fetched_zero (m : Mach w) : m.fetched 0 m.in0 m.in1 m.in2 = m := by
  simp [Mach.fetched, Mach.streamReads]

@[simp] theorem Mach.fetched_setIn0 (m : Mach w) (n : Nat) (i0 i1 i2 v : Word w) :
    (m.fetched n i0 i1 i2).setIn0 v = m.fetched n v i1 i2 := rfl

@[simp] theorem Mach.fetched_setIn1 (m : Mach w) (n : Nat) (i0 i1 i2 v : Word w) :
    (m.fetched n i0 i1 i2).setIn1 v = m.fetched n i0 v i2 := rfl

@[simp] theorem Mach.fetched_setIn2 (m : Mach w) (n : Nat) (i0 i1 i2 v : Word w) :
    (m.fetched n i0 i1 i2).setIn2 v = m.fetched n i0 i1 v := rfl

/-- The next fetch answers the next stream word, or is the overrun of the step. -/
theorem Mach.fetched_fetch {m : Mach w} {n : Nat} (i0 i1 i2 : Word w) (h : m.pc.toNat + n < memSize w) :
    (m.fetched n i0 i1 i2).fetch =
      if m.pc.toNat + (n + 1) < memSize w then .ok (m.streamWord n, m.fetched (n + 1) i0 i1 i2)
      else .error m.overrun := by
  have hpc : (m.fetched n i0 i1 i2).pc.toNat = m.pc.toNat + n := Mach.toNat_add_ofNat h
  split_ifs with hn
  · rw [Mach.fetch_ok (by omega)]
    refine congrArg _ (Prod.ext rfl ?_)
    simp only [Mach.log, Mach.setPc, Mach.fetched, Mach.add_ofNat_succ, Mach.streamReads, List.append_assoc]
    rfl
  · rw [Mach.fetch_overrun (by omega)]
    have hsub : memSize w - m.pc.toNat = n + 1 := by omega
    simp only [Mach.overrun, hsub, Mach.raiseOverrun, Mach.log, Mach.fetched, Mach.streamReads, List.append_assoc]
    rfl

/-! ### Actions 3 and 4 -/

theorem Mach.fetchWriteAddr_eq (m : Mach w) (f : Fields) :
    m.fetchWriteAddr f =
      if m.pc.toNat + f.writeAddr.toNat < memSize w then
        .ok (if f.writeAddr then some m.writeAddrWord else none, m.fetched f.writeAddr.toNat m.in0 m.in1 m.in2)
      else .error m.overrun := by
  have h0 : m.pc.toNat + 0 < memSize w := m.pc.isLt
  have hf := Mach.fetched_fetch m.in0 m.in1 m.in2 h0
  rw [Mach.fetched_zero] at hf
  cases hwa : f.writeAddr
  · simp only [Mach.fetchWriteAddr, hwa, Bool.false_eq_true, if_false, Bool.toNat_false, h0, if_true,
      Mach.fetched_zero]
  · simp only [Mach.fetchWriteAddr, hwa, if_true, Bool.toNat_true, hf, Nat.zero_add]
    split_ifs
    · simp [Mach.streamWord, Mach.writeAddrWord]
    · rfl

/-- The argument fetch of a machine that has fetched `n` words: argument word `i` is stream word `n + i`. -/
theorem Mach.fetchArgs_eq {m : Mach w} {n : Nat} (i0 i1 i2 : Word w) (f : Fields)
    (h : m.pc.toNat + n < memSize w) :
    (m.fetched n i0 i1 i2).fetchArgs f =
      if m.pc.toNat + (n + f.argc.val) < memSize w then
        .ok (m.fetched (n + f.argc.val)
          (if 0 < f.argc.val then m.streamWord n else i0)
          (if 1 < f.argc.val then m.streamWord (n + 1) else i1)
          (if 2 < f.argc.val then m.streamWord (n + 2) else i2))
      else .error m.overrun := by
  obtain ⟨a, ha⟩ : ∃ a, f.argc = a := ⟨_, rfl⟩
  rw [Mach.fetchArgs]
  simp only [Mach.fetchInto, ha]
  by_cases h1 : m.pc.toNat + (n + 1) < memSize w
  · by_cases h2 : m.pc.toNat + (n + 2) < memSize w
    · by_cases h3 : m.pc.toNat + (n + 3) < memSize w
      · fin_cases a <;>
          simp [Mach.fetched_fetch _ _ _ h, Mach.fetched_fetch _ _ _ h1, Mach.fetched_fetch _ _ _ h2, h, h1, h2, h3,
            Nat.add_assoc]
      · fin_cases a <;>
          simp [Mach.fetched_fetch _ _ _ h, Mach.fetched_fetch _ _ _ h1, Mach.fetched_fetch _ _ _ h2, h, h1, h2, h3,
            Nat.add_assoc]
    · have h3 : ¬ m.pc.toNat + (n + 3) < memSize w := by omega
      fin_cases a <;> simp [Mach.fetched_fetch _ _ _ h, Mach.fetched_fetch _ _ _ h1, h, h1, h2, h3, Nat.add_assoc]
  · have h2 : ¬ m.pc.toNat + (n + 2) < memSize w := by omega
    have h3 : ¬ m.pc.toNat + (n + 3) < memSize w := by omega
    fin_cases a <;> simp [Mach.fetched_fetch _ _ _ h, h, h1, h2, h3]

/-! ### Actions 3 to 5 -/

/-- The machine after actions 3 to 5: `pc` past the instruction, the operands in the input registers (R57). -/
def Mach.ready (m : Mach w) (f : Fields) : Mach w :=
  { m with
    pc := m.pcPast f
    in0 := m.operand0 f
    in1 := m.operand1 f
    in2 := m.operand2 f
    events := m.events ++ m.streamReads f.operandWords ++ m.derefReads f }

theorem Mach.derefPass_eq (m : Mach w) (f : Fields) :
    (m.fetched f.operandWords (m.loaded0 f) (m.loaded1 f) (m.operand2 f)).derefPass f = m.ready f := by
  cases h0 : f.readAddr0 <;> cases h1 : f.readAddr1 <;>
    simp [Mach.derefPass, Mach.deref0, Mach.deref1, Mach.ready, Mach.fetched, Mach.operand0, Mach.operand1,
      Mach.derefReads, Mach.pcPast, Mach.memRead, Mach.log, Mach.setIn0, Mach.setIn1, Mach.wordAt, h0, h1]

/-- What the common datapath does (R70): if every word fits below the last address, it completes with the operands
ready, the opcode's action and the write-back; otherwise it overruns. -/
theorem Mach.general_eq (m : Mach w) (f : Fields) (act : Mach w → Mach w) :
    m.general f act =
      if m.pc.toNat + f.operandWords < memSize w then
        .ok ((act (m.ready f)).writeBack (if f.writeAddr then some m.writeAddrWord else none))
      else .error m.overrun := by
  rw [Mach.general, Mach.fetchWriteAddr_eq]
  by_cases hw : m.pc.toNat + f.writeAddr.toNat < memSize w
  · have hargs : (m.fetched f.writeAddr.toNat m.in0 m.in1 m.in2).fetchArgs f =
        if m.pc.toNat + f.operandWords < memSize w then
          .ok (m.fetched f.operandWords (m.loaded0 f) (m.loaded1 f) (m.operand2 f))
        else .error m.overrun := Mach.fetchArgs_eq _ _ _ f hw
    simp only [hw, if_true, hargs]
    by_cases hall : m.pc.toNat + f.operandWords < memSize w
    · simp only [hall, if_true, Mach.derefPass_eq]
    · simp only [hall, if_false]
  · have hall : ¬ m.pc.toNat + f.operandWords < memSize w := by
      simp only [Fields.operandWords]
      omega
    simp only [hw, hall, if_false]

theorem Mach.general_fits {m : Mach w} {f : Fields} (h : m.Fits f) (act : Mach w → Mach w) :
    m.general f act =
      .ok ((act (m.ready f)).writeBack (if f.writeAddr then some m.writeAddrWord else none)) := by
  rw [Mach.general_eq, if_pos h]

theorem Mach.general_not_fits {m : Mach w} {f : Fields} (h : ¬ m.Fits f) (act : Mach w → Mach w) :
    m.general f act = .error m.overrun := by
  rw [Mach.general_eq, if_neg h]

/-! ### The write-back -/

/-- The write-back adds a write of `out` at its address, if there is one, and changes nothing else. -/
theorem Mach.writeBack_eq (m : Mach w) (dest : Option (Word w)) :
    m.writeBack dest =
      { m with
        mem := match dest with
          | some a => m.mem.write a.toNat m.out
          | none => m.mem
        events := m.events ++ match dest with
          | some a => [.write a m.out]
          | none => [] } := by
  cases dest <;> simp [Mach.writeBack, Mach.memWrite]

theorem Mach.writeBack_wordAt {m : Mach w} (hm : m.mem.wf) (dest : Option (Word w)) (c : Word w) :
    (m.writeBack dest).wordAt c = if dest = some c then m.out else m.wordAt c := by
  cases dest with
  | none => simp [Mach.writeBack]
  | some a => simp [Mach.writeBack, Mach.wordAt_memWrite hm, eq_comm]

theorem Mach.writeBack_wf {m : Mach w} (hm : m.mem.wf) (dest : Option (Word w)) : (m.writeBack dest).mem.wf := by
  cases dest with
  | none => exact hm
  | some a => exact Memory.wf_write hm a.isLt m.out

end Sys2Proof.Machine
end

