-- ==== Sys2Proof/Laws/Decode.lean ====
section
/-! SUPPORT. The bits of a packed opcode word, what its fields are, and that each decoder stays in its own
configuration. -/

namespace Sys2Proof

/-! ### The bits of a packed word (R51, R52) -/

theorem pack16_getLsbD (op : BitVec 8) (f : Fields) (k : Nat) :
    (pack16 op f).getLsbD k =
      if k < 8 then op.getLsbD k
      else if k < 9 then (BitVec.ofBool f.readAddr0).getLsbD (k - 8)
      else if k < 10 then (BitVec.ofBool f.readAddr1).getLsbD (k - 9)
      else if k < 11 then (BitVec.ofBool f.writeAddr).getLsbD (k - 10)
      else if k < 13 then (BitVec.ofNat 2 f.argc.val).getLsbD (k - 11)
      else false := by
  change BitVec.getLsbD (w := 3 + 2 + 1 + 1 + 1 + 8) (0#3 ++ BitVec.ofNat 2 f.argc.val ++ BitVec.ofBool f.writeAddr
    ++ BitVec.ofBool f.readAddr1 ++ BitVec.ofBool f.readAddr0 ++ op) k = _
  simp only [BitVec.getLsbD_append, Nat.sub_sub, BitVec.getLsbD_zero]
  grind

theorem pack8_getLsbD (op : BitVec 4) (f : Fields) (k : Nat) :
    (pack8 op f).getLsbD k =
      if k < 4 then op.getLsbD k
      else if k < 5 then (BitVec.ofBool f.readAddr0).getLsbD (k - 4)
      else if k < 6 then (BitVec.ofBool f.readAddr1).getLsbD (k - 5)
      else if k < 7 then (BitVec.ofBool f.writeAddr).getLsbD (k - 6)
      else (BitVec.ofNat 1 (f.argc.val - 1)).getLsbD (k - 7) := by
  change BitVec.getLsbD (w := 1 + 1 + 1 + 1 + 4) (BitVec.ofNat 1 (f.argc.val - 1) ++ BitVec.ofBool f.writeAddr
    ++ BitVec.ofBool f.readAddr1 ++ BitVec.ofBool f.readAddr0 ++ op) k = _
  simp only [BitVec.getLsbD_append, Nat.sub_sub]
  grind

/-! ### The fields of a packed word -/

@[simp] theorem opcodeField16_pack16 (op : BitVec 8) (f : Fields) : opcodeField16 (pack16 op f) = op := by
  refine BitVec.eq_of_getLsbD_eq fun k hk => ?_
  rw [opcodeField16, BitVec.getLsbD_extractLsb', pack16_getLsbD]
  simp [hk]

@[simp] theorem opcodeField8_pack8 (op : BitVec 4) (f : Fields) : opcodeField8 (pack8 op f) = op := by
  refine BitVec.eq_of_getLsbD_eq fun k hk => ?_
  rw [opcodeField8, BitVec.getLsbD_extractLsb', pack8_getLsbD]
  simp [hk]

@[simp] theorem fields16_pack16 (op : BitVec 8) (f : Fields) : fields16 (pack16 op f) = f := by
  have h : (pack16 op f).extractLsb' 11 2 = BitVec.ofNat 2 f.argc.val := by
    refine BitVec.eq_of_getLsbD_eq fun k hk => ?_
    rw [BitVec.getLsbD_extractLsb', pack16_getLsbD]
    obtain rfl | rfl : k = 0 ∨ k = 1 := by omega
    all_goals simp
  have h2 : (BitVec.ofNat 2 f.argc.val).toNat = f.argc.val := by
    rw [BitVec.toNat_ofNat]
    exact Nat.mod_eq_of_lt f.argc.isLt
  simp only [fields16, pack16_getLsbD, h, h2]
  simp

/-- In `CFG8` the field holds `argc - 1`, so `argc` comes back where it is 1 or 2 (R55). -/
theorem fields8_pack8 (op : BitVec 4) (f : Fields) (hf : f.ArgcLegal .cfg8) : fields8 (pack8 op f) = f := by
  have h : (pack8 op f).extractLsb' 7 1 = BitVec.ofNat 1 (f.argc.val - 1) := by
    refine BitVec.eq_of_getLsbD_eq fun k hk => ?_
    rw [BitVec.getLsbD_extractLsb', pack8_getLsbD]
    obtain rfl : k = 0 := by omega
    simp
  have h1 : 1 ≤ f.argc.val := hf.1
  have h2 : f.argc.val ≤ 2 := hf.2
  have h3 : (BitVec.ofNat 1 (f.argc.val - 1)).toNat + 1 = f.argc.val := by
    rw [BitVec.toNat_ofNat]
    omega
  simp only [fields8, pack8_getLsbD, h, h3]
  simp

/-! ### The selected row -/

@[simp] theorem select16_cfg (op : BitVec 8) (f : Fields) : (select16 op f).cfg = .cfg16 := by
  rw [select16]
  simp only [apply_ite Instr.cfg]
  simp only [Instr.cfg, ite_self]

@[simp] theorem select8_cfg (op : BitVec 4) (f : Fields) : (select8 op f).cfg = .cfg8 := by
  rw [select8]
  simp only [apply_ite Instr.cfg]
  simp only [Instr.cfg, ite_self]

@[simp] theorem select16_fields (op : BitVec 8) (f : Fields) : (select16 op f).fields = f := by
  rw [select16]
  simp only [apply_ite Instr.fields]
  simp only [Instr.fields, ite_self]

@[simp] theorem select8_fields (op : BitVec 4) (f : Fields) : (select8 op f).fields = f := by
  rw [select8]
  simp only [apply_ite Instr.fields]
  simp only [Instr.fields, ite_self]

@[simp] theorem decode16_cfg (iw : Word 16) : (decode16 iw).cfg = .cfg16 := select16_cfg _ _

@[simp] theorem decode8_cfg (iw : Word 8) : (decode8 iw).cfg = .cfg8 := select8_cfg _ _

@[simp] theorem decode16_fields (iw : Word 16) : (decode16 iw).fields = fields16 iw := select16_fields _ _

@[simp] theorem decode8_fields (iw : Word 8) : (decode8 iw).fields = fields8 iw := select8_fields _ _

end Sys2Proof
end

