-- ==== Sys2Proof/Laws/Exec.lean ====
section
/-! SUPPORT. `exec` and `step` in one normal form: every instruction but the `HALT` of `CFG8` is the common datapath
around its action. -/

namespace Sys2Proof.Machine

variable {w : Nat}

/-- The action of an instruction (action 6 of a step). -/
def instrAct : Instr → Mach w → Mach w
  | .none16 _ | .none8 _ => Mach.actNone
  | .copy16 _ | .copy8 _ => Mach.actCopy
  | .add16 _ | .add8 _ => Mach.actAdd
  | .jumpIfZero16 _ | .jumpIfZero8 _ => Mach.actJumpIfZero
  | .poke16 _ | .poke8 _ => Mach.actPoke
  | .halt16 _ | .halt8 _ => Mach.actHalt
  | .unassigned16At6 _ _ | .unassigned16At8 _ _ | .unassigned16At16 _ _ => Mach.actNone
  | .unassigned16At32 _ _ | .unassigned16At64 _ _ | .unassigned16At128 _ _ => Mach.actNone
  | .unassigned8At6 _ _ | .unassigned8At8 _ _ => Mach.actNone

theorem exec_of16 {i : Instr} (h : i.cfg = .cfg16) (m : Mach 16) :
    exec i (.of16 m) = runOutcome .of16 (m.general i.fields (instrAct i)) := by
  cases i <;> first | rfl | cases h

/-- Every `CFG8` instruction but `HALT`. -/
theorem exec_of8 {i : Instr} (h : i.cfg = .cfg8) (hh : ∀ f, i ≠ .halt8 f) (m : Mach 8) :
    exec i (.of8 m) = runOutcome .of8 (m.general i.fields (instrAct i)) := by
  cases i <;> first | rfl | exact absurd rfl (hh _) | cases h

theorem exec_halt8 (f : Fields) (m : Mach 8) : exec (.halt8 f) (.of8 m) = .next (.of8 m.setHalted) := rfl

theorem exec_cfg16_of8 {i : Instr} (h : i.cfg = .cfg16) (m : Mach 8) :
    exec i (.of8 m) = .refused .wrongConfiguration := by
  cases i <;> first | rfl | cases h

theorem exec_cfg8_of16 {i : Instr} (h : i.cfg = .cfg8) (m : Mach 16) :
    exec i (.of16 m) = .refused .wrongConfiguration := by
  cases i <;> first | rfl | cases h

/-! ### Actions keep what the write-back needs -/

/-- An action changes at most `pc`, `out`, `halted`, the output stream and the history. -/
theorem instrAct_eq (i : Instr) (m : Mach w) :
    instrAct i m =
      { m with
        pc := (instrAct i m).pc
        out := (instrAct i m).out
        halted := (instrAct i m).halted
        outStream := (instrAct i m).outStream
        events := (instrAct i m).events } := by
  cases i <;> rfl

@[simp] theorem instrAct_mem (i : Instr) (m : Mach w) : (instrAct i m).mem = m.mem := by cases i <;> rfl

@[simp] theorem instrAct_fault (i : Instr) (m : Mach w) : (instrAct i m).fault = m.fault := by cases i <;> rfl

/-! ### The step -/

/-- The machine after action 1: fresh scratch registers, `pc` past the opcode word, the read in the history. -/
def Mach.fetchedOpcode (m : Mach w) : Mach w :=
  (m.beginStep.log (.read m.pc (m.wordAt m.pc))).setPc (m.pc + 1#w)

theorem Mach.fetchOpcode_ok {m : Mach w} (h : m.pc.toNat + 1 < memSize w) :
    m.fetchOpcode = .ok (m.wordAt m.pc, m.fetchedOpcode) := Mach.fetch_ok (m := m.beginStep) h

theorem Mach.fetchOpcode_overrun {m : Mach w} (h : ¬ m.pc.toNat + 1 < memSize w) :
    m.fetchOpcode = .error ((m.beginStep.log (.read m.pc (m.wordAt m.pc))).raiseOverrun .pcAdvance
      (BitVec.ofNat (w + 1) (memSize w))) := Mach.fetch_overrun (m := m.beginStep) h

theorem Mach.request_not_running {m : Mach w} (wrap : Mach w → State) (dec : Word w → Instr)
    (h : m.status ≠ .running) : m.request wrap dec = .next (wrap m) := by
  unfold Mach.request
  cases hs : m.status <;> simp_all

theorem Mach.request_running {m : Mach w} (wrap : Mach w → State) (dec : Word w → Instr)
    (h : m.status = .running) (hpc : m.pc.toNat + 1 < memSize w) :
    m.request wrap dec = exec (dec (m.wordAt m.pc)) (wrap m.fetchedOpcode) := by
  simp [Mach.request, h, Mach.fetchOpcode_ok hpc]

theorem Mach.request_overrun {m : Mach w} (wrap : Mach w → State) (dec : Word w → Instr)
    (h : m.status = .running) (hpc : ¬ m.pc.toNat + 1 < memSize w) :
    m.request wrap dec = overrunOutcome wrap ((m.beginStep.log (.read m.pc (m.wordAt m.pc))).raiseOverrun .pcAdvance
      (BitVec.ofNat (w + 1) (memSize w))) := by
  simp [Mach.request, h, Mach.fetchOpcode_overrun hpc]

theorem Mach.status_running_iff {m : Mach w} : m.status = .running ↔ m.halted = false ∧ m.fault = none := by
  unfold Mach.status
  cases m.halted <;> cases m.fault <;> simp

end Sys2Proof.Machine
end

