-- ==== Sys2Proof/Laws/History.lean ====
section
/-! SUPPORT. The laws of the event history: how counting, emitting and the latest write pass over an append, and that each
access keeps the history explaining the machine. -/

namespace Sys2Proof

open Sys2Proof.Machine

variable {w : Nat}

/-! ### Over an append -/

@[simp] theorem readCount_append (es fs : List (Event w)) : readCount (es ++ fs) = readCount es + readCount fs := by
  induction es with
  | nil => simp [readCount]
  | cons e es ih => cases e <;> simp [readCount, ih, Nat.add_right_comm]

@[simp] theorem writeCount_append (es fs : List (Event w)) :
    writeCount (es ++ fs) = writeCount es + writeCount fs := by
  induction es with
  | nil => simp [writeCount]
  | cons e es ih => cases e <;> simp [writeCount, ih, Nat.add_right_comm]

@[simp] theorem emitted_append (es fs : List (Event w)) : emitted (es ++ fs) = emitted es ++ emitted fs := by
  induction es with
  | nil => rfl
  | cons e es ih => cases e <;> simp [emitted, ih]

theorem latest_append (image : Word w → Word w) (a : Word w) (es fs : List (Event w)) :
    latest image a (es ++ fs) = latest (fun c => latest image c es) a fs := by
  induction es generalizing image with
  | nil => rfl
  | cons e es ih => cases e <;> simp [latest, ih]

/-! ### The reads of an instruction -/

@[simp] theorem readCount_streamReads (m : Mach w) (n : Nat) : readCount (m.streamReads n) = n := by
  induction n with
  | zero => rfl
  | succ n ih => simp [Mach.streamReads, ih, readCount]

@[simp] theorem writeCount_streamReads (m : Mach w) (n : Nat) : writeCount (m.streamReads n) = 0 := by
  induction n with
  | zero => rfl
  | succ n ih => simp [Mach.streamReads, ih, writeCount]

@[simp] theorem emitted_streamReads (m : Mach w) (n : Nat) : emitted (m.streamReads n) = [] := by
  induction n with
  | zero => rfl
  | succ n ih => simp [Mach.streamReads, ih, emitted]

@[simp] theorem readCount_derefReads (m : Mach w) (f : Fields) :
    readCount (m.derefReads f) = f.readAddr0.toNat + f.readAddr1.toNat := by
  cases h0 : f.readAddr0 <;> cases h1 : f.readAddr1 <;> simp [Mach.derefReads, h0, h1, readCount]

@[simp] theorem writeCount_derefReads (m : Mach w) (f : Fields) : writeCount (m.derefReads f) = 0 := by
  cases h0 : f.readAddr0 <;> cases h1 : f.readAddr1 <;> simp [Mach.derefReads, h0, h1, writeCount]

@[simp] theorem emitted_derefReads (m : Mach w) (f : Fields) : emitted (m.derefReads f) = [] := by
  cases h0 : f.readAddr0 <;> cases h1 : f.readAddr1 <;> simp [Mach.derefReads, h0, h1, emitted]

/-! ### Each access keeps the history explaining the machine -/

theorem ReadsLatest.snoc {image : Word w → Word w} {es : List (Event w)} (h : ReadsLatest image es) (e : Event w)
    (he : ∀ a v, e = .read a v → v = latest image a es) : ReadsLatest image (es ++ [e]) := by
  intro before a v after hes
  rcases List.eq_nil_or_concat after with rfl | ⟨init, x, rfl⟩
  · obtain ⟨rfl, hx⟩ := List.append_inj' hes rfl
    exact he a v (by simpa using hx)
  · have hes' : es ++ [e] = (before ++ .read a v :: init) ++ [x] := by simpa using hes
    exact h before a v init (List.append_inj' hes' rfl).1

/-- The machine may change in anything but memory, output and history. -/
theorem HistoryExplains.congr {image : Word w → Word w} {m t : Mach w} (h : HistoryExplains image m)
    (hmem : t.mem = m.mem) (hevents : t.events = m.events) (hout : t.outStream = m.outStream) :
    HistoryExplains image t :=
  ⟨fun a => by rw [hevents, ← h.memory a, Mach.wordAt, Mach.wordAt, hmem], hevents ▸ h.reads,
    by rw [hevents, hout, h.output]⟩

theorem HistoryExplains.log_read {image : Word w → Word w} {m : Mach w} (h : HistoryExplains image m) (a : Word w) :
    HistoryExplains image (m.log (.read a (m.wordAt a))) := by
  refine ⟨fun c => ?_, h.reads.snoc _ ?_, ?_⟩
  · simp [latest_append, latest, h.memory]
  · intro b v hb
    cases hb
    exact h.memory a
  · simp [emitted, h.output]

theorem HistoryExplains.emit {image : Word w → Word w} {m : Mach w} (h : HistoryExplains image m) (b : Byte) :
    HistoryExplains image (m.emit b) := by
  refine ⟨fun c => ?_, h.reads.snoc _ ?_, ?_⟩
  · simp [latest_append, latest, Mach.wordAt]
    exact h.memory c
  · intro c v hc
    cases hc
  · simp [emitted, h.output]

theorem HistoryExplains.memWrite {image : Word w → Word w} {m : Mach w} (h : HistoryExplains image m)
    (hm : m.mem.wf) (a v : Word w) : HistoryExplains image (m.memWrite a v) := by
  refine ⟨fun c => ?_, h.reads.snoc _ ?_, ?_⟩
  · rw [Mach.wordAt_memWrite hm]
    simp [latest_append, latest, h.memory]
  · intro c u hc
    cases hc
  · simp [emitted, h.output]

end Sys2Proof
end

