-- ==== Sys2Proof/Laws/PerInstr.lean ====
section
/-! SUPPORT. The law of every instruction as syntax: the range of its length (spec/30_encoding.md R56). -/

namespace Sys2Proof.Laws.LengthRange

/-- A well-formed instruction is 1 to 5 words in `CFG16`; in `CFG8` it is 2 to 4 words, and `HALT` is 1 (R56). -/
def Statement (i : Instr) : Prop :=
  i.WellFormed i.cfg →
    match i.cfg with
    | .cfg16 => 1 ≤ i.length ∧ i.length ≤ 5
    | .cfg8 => if i.opcode = 5 then i.length = 1 else 2 ≤ i.length ∧ i.length ≤ 4

/-- In `CFG16` the operand words are at most four. -/
theorem operandWords_le (f : Fields) : f.operandWords ≤ 4 := by
  have h1 := f.argc.isLt
  have h2 : f.writeAddr.toNat ≤ 1 := Bool.toNat_le _
  simp only [Fields.operandWords]
  omega

/-- In `CFG8` the operand words are one to three. -/
theorem operandWords_cfg8 {f : Fields} (hf : f.ArgcLegal .cfg8) : 1 ≤ f.operandWords ∧ f.operandWords ≤ 3 := by
  have h1 : 1 ≤ f.argc.val := hf.1
  have h2 : f.argc.val ≤ 2 := hf.2
  have h3 : f.writeAddr.toNat ≤ 1 := Bool.toNat_le _
  simp only [Fields.operandWords]
  omega

theorem of_cfg16 {i : Instr} (hc : i.cfg = .cfg16) (hl : i.length = 1 + i.fields.operandWords) : Statement i := by
  intro _
  rw [hc]
  have := operandWords_le i.fields
  simp only
  omega

theorem of_cfg8 {i : Instr} (hc : i.cfg = .cfg8) (ho : i.opcode ≠ 5) (hl : i.length = 1 + i.fields.operandWords) :
    Statement i := by
  intro hw
  rw [hc] at hw ⊢
  have := operandWords_cfg8 hw.2
  simp only [ho, if_false]
  omega

theorem none16 (f : Fields) : Statement (.none16 f) := of_cfg16 rfl rfl
theorem copy16 (f : Fields) : Statement (.copy16 f) := of_cfg16 rfl rfl
theorem add16 (f : Fields) : Statement (.add16 f) := of_cfg16 rfl rfl
theorem jumpIfZero16 (f : Fields) : Statement (.jumpIfZero16 f) := of_cfg16 rfl rfl
theorem poke16 (f : Fields) : Statement (.poke16 f) := of_cfg16 rfl rfl
theorem halt16 (f : Fields) : Statement (.halt16 f) := of_cfg16 rfl rfl
theorem unassigned16At6 (x : BitVec 1) (f : Fields) : Statement (.unassigned16At6 x f) := of_cfg16 rfl rfl
theorem unassigned16At8 (x : BitVec 3) (f : Fields) : Statement (.unassigned16At8 x f) := of_cfg16 rfl rfl
theorem unassigned16At16 (x : BitVec 4) (f : Fields) : Statement (.unassigned16At16 x f) := of_cfg16 rfl rfl
theorem unassigned16At32 (x : BitVec 5) (f : Fields) : Statement (.unassigned16At32 x f) := of_cfg16 rfl rfl
theorem unassigned16At64 (x : BitVec 6) (f : Fields) : Statement (.unassigned16At64 x f) := of_cfg16 rfl rfl
theorem unassigned16At128 (x : BitVec 7) (f : Fields) : Statement (.unassigned16At128 x f) := of_cfg16 rfl rfl
theorem none8 (f : Fields) : Statement (.none8 f) := of_cfg8 rfl (by simp [Instr.opcode]) rfl
theorem copy8 (f : Fields) : Statement (.copy8 f) := of_cfg8 rfl (by simp [Instr.opcode]) rfl
theorem add8 (f : Fields) : Statement (.add8 f) := of_cfg8 rfl (by simp [Instr.opcode]) rfl
theorem jumpIfZero8 (f : Fields) : Statement (.jumpIfZero8 f) := of_cfg8 rfl (by simp [Instr.opcode]) rfl
theorem poke8 (f : Fields) : Statement (.poke8 f) := of_cfg8 rfl (by simp [Instr.opcode]) rfl
theorem halt8 (f : Fields) : Statement (.halt8 f) := fun _ => rfl
theorem unassigned8At6 (x : BitVec 1) (f : Fields) : Statement (.unassigned8At6 x f) := of_cfg8 rfl (by simp only [Instr.opcode]; omega) rfl
theorem unassigned8At8 (x : BitVec 3) (f : Fields) : Statement (.unassigned8At8 x f) := of_cfg8 rfl (by simp only [Instr.opcode]; omega) rfl

end Sys2Proof.Laws.LengthRange
end

