-- ==== Sys2Proof/Tests/Slice0.lean ====
section
/-! SUPPORT. The tests: the smoke tests of WellFormed, one decoding of every constructor, single steps, and for every
statement with hypotheses a witness that meets them. Expected values come from spec/95_test_vectors.md (the vectors'
ids stand beside the tests) and, for the words it does not list, from the encoding tables of spec/30_encoding.md. -/

namespace Sys2Proof.Tests

open Sys2Proof.Machine Sys2Proof.Claims

/-! ### Helpers -/

/-- A Running `CFG16` machine at `pc` with the given words. -/
def at16 (pc : Word 16) (image : List (Word 16 × Word 16)) : Mach 16 := Mach.boot pc image

/-- A Running `CFG8` machine at `pc` with the given words. -/
def at8 (pc : Word 8) (image : List (Word 8 × Word 8)) : Mach 8 := Mach.boot pc image

/-- A field of the next state of one `CFG16` step. -/
def step16 {α : Type} (m : Mach 16) (g : Mach 16 → α) : Option α :=
  match step (.of16 m) with
  | .next s => some (g s.mach16)
  | .fault _ => none
  | .refused _ => none

/-- A field of the next state of one `CFG8` step. -/
def step8 {α : Type} (m : Mach 8) (g : Mach 8 → α) : Option α :=
  match step (.of8 m) with
  | .next s => some (g s.mach8)
  | .fault _ => none
  | .refused _ => none

/-- The kind, the address and a field of the Faulted state of one faulting step. -/
def stepFault {α : Type} (s : State) (g : State → α) : Option (OverrunKind × Nat × α) :=
  match step s with
  | .next _ => none
  | .fault (.addressOverrun k a t) => some (k, a, g t)
  | .refused _ => none

/-! ### WellFormed refuses -/

theorem test_wf_accepts : (Instr.copy8 ⟨true, false, true, 2⟩).WellFormed .cfg8 := by decide

theorem test_wf_refuses_other_configuration : ¬ (Instr.copy16 ⟨true, false, true, 1⟩).WellFormed .cfg8 := by decide

theorem test_wf_refuses_argc_zero_in_cfg8 : ¬ (Instr.add8 ⟨false, false, false, 0⟩).WellFormed .cfg8 := by decide

theorem test_wf_refuses_argc_three_in_cfg8 : ¬ (Instr.add8 ⟨false, false, false, 3⟩).WellFormed .cfg8 := by decide

/-! ### Decoding, a word of every constructor (tables 2.1 and 2.2) -/

-- V2
theorem test_decode_none16 : decode16 0x0C00#16 = .none16 ⟨false, false, true, 1⟩ := by decide

theorem test_decode_copy16 : decode16 0x0701#16 = .copy16 ⟨true, true, true, 0⟩ := by decide

theorem test_decode_add16 : decode16 0x1702#16 = .add16 ⟨true, true, true, 2⟩ := by decide

theorem test_decode_jumpIfZero16 : decode16 0x1203#16 = .jumpIfZero16 ⟨false, true, false, 2⟩ := by decide

theorem test_decode_poke16 : decode16 0x1204#16 = .poke16 ⟨false, true, false, 2⟩ := by decide

-- the reserved bits are set
theorem test_decode_halt16 : decode16 0xE005#16 = .halt16 ⟨false, false, false, 0⟩ := by decide

theorem test_decode_unassigned16At6 : decode16 0x1806#16 = .unassigned16At6 0#1 ⟨false, false, false, 3⟩ := by decide

-- opcode 13, by R51
theorem test_decode_unassigned16At8 : decode16 0b0001000100001101#16 = .unassigned16At8 5#3 ⟨true, false, false, 2⟩ := by decide

-- opcode 31, by R51
theorem test_decode_unassigned16At16 : decode16 0b0000011000011111#16 = .unassigned16At16 15#4 ⟨false, true, true, 0⟩ := by decide

-- opcode 33, by R51
theorem test_decode_unassigned16At32 : decode16 0b0000100000100001#16 = .unassigned16At32 1#5 ⟨false, false, false, 1⟩ := by decide

-- opcode 64, by R51
theorem test_decode_unassigned16At64 : decode16 0b0001110001000000#16 = .unassigned16At64 0#6 ⟨false, false, true, 3⟩ := by decide

theorem test_decode_unassigned16At128 : decode16 0xFFFF#16 = .unassigned16At128 127#7 ⟨true, true, true, 3⟩ := by decide

theorem test_decode_none8 : decode8 0x00#8 = .none8 ⟨false, false, false, 1⟩ := by decide

theorem test_decode_copy8 : decode8 0x51#8 = .copy8 ⟨true, false, true, 1⟩ := by decide

theorem test_decode_add8 : decode8 0xD2#8 = .add8 ⟨true, false, true, 2⟩ := by decide

theorem test_decode_jumpIfZero8 : decode8 0xA3#8 = .jumpIfZero8 ⟨false, true, false, 2⟩ := by decide

theorem test_decode_poke8 : decode8 0xA4#8 = .poke8 ⟨false, true, false, 2⟩ := by decide

theorem test_decode_halt8 : decode8 0xC5#8 = .halt8 ⟨false, false, true, 2⟩ := by decide

theorem test_decode_unassigned8At6 : decode8 0x76#8 = .unassigned8At6 0#1 ⟨true, true, true, 1⟩ := by decide

theorem test_decode_unassigned8At8 : decode8 0xFF#8 = .unassigned8At8 7#3 ⟨true, true, true, 2⟩ := by decide

theorem test_encode_add16 : encode16 (.add16 ⟨true, false, true, 2⟩) = 0x1502#16 := by decide

theorem test_encode_add8 : encode8 (.add8 ⟨true, false, true, 2⟩) = 0xD2#8 := by decide

theorem test_decodeTableWord : decodeTableWord 16 0x1204 = some (.poke16 ⟨false, true, false, 2⟩) ∧
    decodeTableWord 8 0xA4 = some (.poke8 ⟨false, true, false, 2⟩) ∧ decodeTableWord 24 0 = none := by decide

/-! ### Single steps of CFG16 (table 2.3) -/

-- V1
theorem test_none16_advances :
    step16 (at16 0x20#16 [(0x20#16, 0x0000#16)]) (fun t => (t.pc, t.halted, t.outStream)) =
      some (0x21#16, false, []) := by decide

-- V2
theorem test_none16_consumes_operand_words :
    step16 (at16 0x20#16 [(0x20#16, 0x0C00#16), (0x21#16, 0x30#16), (0x22#16, 7#16)])
      (fun t => (t.pc, t.events.length)) = some (0x23#16, 4) := by decide

-- V3
theorem test_copy16_immediate :
    step16 (at16 0x10#16 [(0x10#16, 0x0C01#16), (0x11#16, 0x30#16), (0x12#16, 0xBEEF#16)])
      (fun t => (t.pc, t.wordAt 0x30#16)) = some (0x13#16, 0xBEEF#16) := by decide

-- V4
theorem test_copy16_indirect :
    step16 (at16 0x10#16 [(0x10#16, 0x0D01#16), (0x11#16, 5#16), (0x12#16, 4#16), (4#16, 0x1234#16)])
      (fun t => (t.pc, t.wordAt 5#16, t.wordAt 4#16)) = some (0x13#16, 0x1234#16, 0x1234#16) := by decide

-- V7
theorem test_add16_wraps_in_place :
    step16 (at16 0x10#16 [(0x10#16, 0x1502#16), (0x11#16, 4#16), (0x12#16, 4#16), (0x13#16, 1#16),
      (4#16, 0xFFFF#16)]) (fun t => (t.pc, t.wordAt 4#16)) = some (0x14#16, 0#16) := by decide

-- V30
theorem test_add16_adds_to_its_own_argument_word :
    step16 (at16 0x10#16 [(0x10#16, 0x1502#16), (0x11#16, 0x12#16), (0x12#16, 0x12#16), (0x13#16, 1#16)])
      (fun t => (t.wordAt 0x12#16, t.events.drop 4)) =
      some (0x13#16, [.read 0x12#16 0x12#16, .write 0x12#16 0x13#16]) := by decide

-- V13
theorem test_jumpIfZero16_taken :
    step16 (at16 0x40#16 [(0x40#16, 0x1203#16), (0x41#16, 0x50#16), (0x42#16, 5#16)]) (fun t => t.pc) =
      some 0x50#16 := by decide

-- V14
theorem test_jumpIfZero16_not_taken :
    step16 (at16 0x40#16 [(0x40#16, 0x1203#16), (0x41#16, 0x50#16), (0x42#16, 5#16), (5#16, 0x0100#16)])
      (fun t => t.pc) = some 0x43#16 := by decide

-- V18
theorem test_poke16_low_byte :
    step16 (at16 0x50#16 [(0x50#16, 0x1204#16), (0x52#16, 5#16), (5#16, 0x0148#16)])
      (fun t => (t.pc, t.outStream)) = some (0x53#16, [0x48#8]) := by decide

-- V19
theorem test_poke16_operand_one :
    step16 (at16 0x50#16 [(0x50#16, 0x1004#16), (0x51#16, 0x41#16), (0x52#16, 0x42#16)])
      (fun t => t.outStream) = some [0x42#8] := by decide

-- V21
theorem test_halt16 :
    step16 (at16 0x60#16 [(0x60#16, 0x0005#16)]) (fun t => (t.halted, t.pc, t.outStream)) =
      some (true, 0x61#16, []) := by decide

-- V22
theorem test_halt16_malformed_consumes :
    step16 (at16 0x60#16 [(0x60#16, 0x0C05#16), (0x61#16, 0x70#16), (0x62#16, 0x1111#16)])
      (fun t => (t.halted, t.pc)) = some (true, 0x63#16) := by decide

-- V23
theorem test_unassigned16At128 :
    step16 (at16 0x30#16 [(0x30#16, 0x08FF#16), (0x31#16, 0xBEEF#16)]) (fun t => (t.pc, t.mem)) =
      some (0x32#16, [(0x30, 0x08FF#16), (0x31, 0xBEEF#16)]) := by decide

-- V24
theorem test_unassigned16At6 :
    step16 (at16 0x30#16 [(0x30#16, 0x1F07#16), (0x31#16, 9#16), (0x32#16, 1#16), (0x33#16, 2#16),
      (0x34#16, 3#16)]) (fun t => (t.pc, (t.events.drop 5).take 2)) =
      some (0x35#16, [.read 1#16 0#16, .read 2#16 0#16]) := by decide

-- R93: two words, no effect
theorem test_unassigned16At8 :
    step16 (at16 0x30#16 [(0x30#16, 0x080F#16), (0x31#16, 9#16)])
      (fun t => (t.pc, t.halted, t.outStream)) = some (0x32#16, false, []) := by decide

-- R93: two words, no effect
theorem test_unassigned16At16 :
    step16 (at16 0x30#16 [(0x30#16, 0x0810#16), (0x31#16, 9#16)])
      (fun t => (t.pc, t.halted, t.outStream)) = some (0x32#16, false, []) := by decide

-- R93: two words, no effect
theorem test_unassigned16At32 :
    step16 (at16 0x30#16 [(0x30#16, 0x083F#16), (0x31#16, 9#16)])
      (fun t => (t.pc, t.halted, t.outStream)) = some (0x32#16, false, []) := by decide

-- R93: two words, no effect
theorem test_unassigned16At64 :
    step16 (at16 0x30#16 [(0x30#16, 0x0840#16), (0x31#16, 9#16)])
      (fun t => (t.pc, t.halted, t.outStream)) = some (0x32#16, false, []) := by decide

-- V27
theorem test_overrun16_at_operand :
    stepFault (.of16 (at16 0xFFFD#16 [(0xFFFD#16, 0x0C01#16), (0xFFFE#16, 2#16), (0xFFFF#16, 1#16)]))
      (fun t => (t.mach16.events, t.mach16.wordAt 2#16)) =
      some (.pcAdvance, 0x10000,
        [.read 0xFFFD#16 0x0C01#16, .read 0xFFFE#16 2#16, .read 0xFFFF#16 1#16], 0#16) := by decide

-- V26
theorem test_overrun16_halt_at_top :
    stepFault (.of16 (at16 0xFFFF#16 [(0xFFFF#16, 0x0005#16)])) (fun t => (t.mach16.halted, t.mach16.status)) =
      some (.pcAdvance, 0x10000, false, .faulted) := by decide

-- V28
theorem test_halted_step_changes_nothing :
    step16 (Mach.setHalted (at16 0x60#16 [(0x60#16, 0x0801#16)])) id =
      some (Mach.setHalted (at16 0x60#16 [(0x60#16, 0x0801#16)])) := by decide

theorem test_overrun_codes : [OverrunKind.pcAdvance, .jumpTarget, .deref, .writeBack].map OverrunKind.code =
    [1#3, 2#3, 3#3, 4#3] := by decide

/-! ### Single steps of CFG8 (table 2.4) -/

-- W1
theorem test_none8 :
    step8 (at8 0x20#8 [(0x20#8, 0x00#8), (0x21#8, 0x77#8)]) (fun t => t.pc) = some 0x22#8 := by decide

-- W2
theorem test_copy8_immediate :
    step8 (at8 0x10#8 [(0x10#8, 0x41#8), (0x11#8, 0x05#8), (0x12#8, 0x7F#8)])
      (fun t => (t.pc, t.wordAt 5#8)) = some (0x13#8, 0x7F#8) := by decide

-- W4
theorem test_copy8_has_no_quirk :
    step8 (at8 0x10#8 [(0x10#8, 0xF1#8), (0x11#8, 5#8), (0x12#8, 4#8), (0x13#8, 6#8), (4#8, 0xAB#8),
      (6#8, 4#8)]) (fun t => (t.pc, t.wordAt 5#8)) = some (0x14#8, 0xAB#8) := by decide

-- W5
theorem test_add8_wraps :
    step8 (at8 0x10#8 [(0x10#8, 0xC2#8), (0x11#8, 9#8), (0x12#8, 0xF0#8), (0x13#8, 0x20#8)])
      (fun t => (t.pc, t.wordAt 9#8)) = some (0x14#8, 0x10#8) := by decide

-- W6
theorem test_add8_in_place :
    step8 (at8 0x10#8 [(0x10#8, 0xD2#8), (0x11#8, 4#8), (0x12#8, 4#8), (0x13#8, 1#8), (4#8, 0xFF#8)])
      (fun t => (t.pc, t.wordAt 4#8)) = some (0x14#8, 0#8) := by decide

-- W8
theorem test_jumpIfZero8_taken :
    step8 (at8 0x40#8 [(0x40#8, 0x83#8), (0x41#8, 0x10#8)]) (fun t => t.pc) = some 0x10#8 := by decide

-- W9
theorem test_jumpIfZero8_not_taken :
    step8 (at8 0x40#8 [(0x40#8, 0xA3#8), (0x41#8, 0x50#8), (0x42#8, 5#8), (5#8, 0x80#8)]) (fun t => t.pc) =
      some 0x43#8 := by decide

-- W10
theorem test_poke8 :
    step8 (at8 0x50#8 [(0x50#8, 0x84#8), (0x52#8, 0x0A#8)]) (fun t => (t.pc, t.outStream)) =
      some (0x53#8, [0x0A#8]) := by decide

-- W12
theorem test_halt8_malformed_writes_nothing :
    step8 (at8 0x60#8 [(0x60#8, 0xC5#8), (0x61#8, 0x70#8), (0x62#8, 0x11#8), (0x70#8, 0xAA#8)])
      (fun t => (t.halted, t.pc, t.wordAt 0x70#8)) = some (true, 0x61#8, 0xAA#8) := by decide

-- R93
theorem test_unassigned8At6 :
    step8 (at8 0x30#8 [(0x30#8, 0x06#8), (0x31#8, 1#8)]) (fun t => (t.pc, t.halted)) = some (0x32#8, false) := by decide

-- W13
theorem test_unassigned8At8 :
    step8 (at8 0x30#8 [(0x30#8, 0x8F#8), (0x31#8, 1#8), (0x32#8, 2#8)]) (fun t => (t.pc, t.outStream)) =
      some (0x33#8, []) := by decide

-- W14
theorem test_overrun8_at_operand :
    stepFault (.of8 (at8 0xFE#8 [])) (fun t => t.mach8.events) =
      some (.pcAdvance, 0x100, [.read 0xFE#8 0#8, .read 0xFF#8 0#8]) := by decide

-- W15
theorem test_overrun8_halt_at_top :
    stepFault (.of8 (at8 0xFF#8 [(0xFF#8, 5#8)])) (fun t => t.mach8.halted) =
      some (.pcAdvance, 0x100, false) := by decide

/-! ### Witnesses: for every statement with hypotheses, states and operands that meet them -/

theorem witness_DecodeInvertsEncode :
    (Instr.add16 ⟨true, false, true, 3⟩).WellFormed .cfg16 ∧ (Instr.poke8 ⟨true, true, true, 1⟩).WellFormed .cfg8 := by
  decide

theorem witness_ReservedBitsAreIgnored :
    (∀ k < 13, (0x0005#16).getLsbD k = (0xE005#16).getLsbD k) ∧ (0x0005#16 : Word 16) ≠ 0xE005#16 := by
  decide

theorem witness_LengthIsReadFromOpcodeWord : opcodeField8 0xF5#8 = 5#4 ∧ opcodeField8 0xF4#8 ≠ 5#4 := by decide

theorem witness_ResetLeavesLoadedRunningMachine_unloaded :
    ∀ c ∈ ([(4#16, 7#16)] : List (Word 16 × Word 16)), c.1 ≠ 0xFFFF#16 := by simp

theorem witness_ResetLeavesLoadedRunningMachine_loaded :
    ([(4#16, 7#16), (4#16, 9#16), (5#16, 1#16)] : List (Word 16 × Word 16)) = [(4#16, 7#16)] ++ (4#16, 9#16) ::
      [(5#16, 1#16)] ∧ ∀ c ∈ ([(5#16, 1#16)] : List (Word 16 × Word 16)), c.1 ≠ 4#16 := by simp

theorem witness_StepRunsDecodedInstruction :
    ((at16 0xFFFE#16 []).status = .running ∧ (at16 0xFFFE#16 []).pc.toNat + 1 < 65536) ∧
      (at8 0xFE#8 []).status = .running ∧ (at8 0xFE#8 []).pc.toNat + 1 < 256 := by decide

/-- The Faulted state of a step at the last address. -/
def faulted16 : Mach 16 := ((at16 0xFFFF#16 []).raiseOverrun .pcAdvance 0x10000#17).2

theorem witness_StepChangesNothingUnlessRunning :
    statusOf (.of16 (Mach.setHalted (at16 0#16 []))) = .halted ∧ statusOf (.of16 faulted16) = .faulted := by decide

theorem witness_HaltedAndFaultedAreTerminal :
    isHalted (.of8 (Mach.setHalted (at8 0#8 []))) = true ∧ statusOf (.of16 faulted16) = .faulted := by decide

theorem witness_OpcodeFetchAtLastAddressFaults :
    ((at16 0xFFFF#16 []).status = .running ∧ (at16 0xFFFF#16 []).pc.toNat + 1 = 65536) ∧
      (at8 0xFF#8 []).status = .running ∧ (at8 0xFF#8 []).pc.toNat + 1 = 256 := by decide

theorem witness_OperandFetchAtLastAddressFaults :
    ((Instr.copy16 ⟨false, false, false, 1⟩).cfg = .cfg16 ∧ ¬ (at16 0xFFFF#16 []).Fits ⟨false, false, false, 1⟩) ∧
      (Instr.copy8 ⟨false, false, true, 2⟩).cfg = .cfg8 ∧ (Instr.copy8 ⟨false, false, true, 2⟩).opcode ≠ 5 ∧
      ¬ (at8 0xFD#8 []).Fits ⟨false, false, true, 2⟩ := by decide

/-- Steps that fault, as OnlyPcAdvanceIsRaised speaks of: in each configuration one with the opcode word at the last
address and one with an operand word there. -/
theorem witness_OnlyPcAdvanceIsRaised :
    (∃ kind addr t, step (.of16 (at16 0xFFFF#16 [])) = .fault (.addressOverrun kind addr t)) ∧
    (∃ kind addr t, step (.of16 (at16 0xFFFE#16 [(0xFFFE#16, 0x0801#16)])) = .fault (.addressOverrun kind addr t)) ∧
    (∃ kind addr t, step (.of8 (at8 0xFF#8 [])) = .fault (.addressOverrun kind addr t)) ∧
    ∃ kind addr t, step (.of8 (at8 0xFE#8 [(0xFE#8, 0x01#8)])) = .fault (.addressOverrun kind addr t) :=
  ⟨⟨_, _, _, rfl⟩, ⟨_, _, _, rfl⟩, ⟨_, _, _, rfl⟩, _, _, _, rfl⟩

/-- What the loader leaves at an address: the last of two writes, and 0 where it wrote nothing (R20). -/
theorem test_imageWord :
    imageWord [(4#16, 7#16), (4#16, 9#16), (5#16, 1#16)] 4#16 = 9#16 ∧
      imageWord [(4#16, 7#16), (4#16, 9#16), (5#16, 1#16)] 6#16 = 0#16 := by decide

/-- A step that faults, as FaultingStepHasNoEffect, ConfigurationNeverChanges and the two
invariants speak of. -/
theorem witness_faulting_step :
    ∃ kind addr t, step (.of16 (at16 0xFFFF#16 [])) = .fault (.addressOverrun kind addr t) := ⟨_, _, _, rfl⟩

/-- A step that completes, as ConfigurationNeverChanges and the two invariants speak of. -/
theorem witness_completing_step :
    (∃ t, step (.of16 (at16 0#16 [])) = .next t) ∧ ∃ t, step (.of8 (at8 0#8 [])) = .next t := ⟨⟨_, rfl⟩, ⟨_, rfl⟩⟩

/-- `COPY #5 -> [0x13]` (V29): it writes the word that follows it. -/
def v29 : Mach 16 := at16 0x10#16 [(0x10#16, 0x0C01#16), (0x11#16, 0x13#16), (0x12#16, 5#16)]

/-- The same in `CFG8`. -/
def v29cfg8 : Mach 8 := at8 0x10#8 [(0x10#8, 0x41#8), (0x11#8, 0x13#8), (0x12#8, 5#8)]

theorem witness_NextStepRunsWordJustWritten16 :
    ∃ m1 t, v29.mem.wf ∧ v29.status = .running ∧ v29.fetchOpcode = .ok (0x0C01#16, m1) ∧
      step (.of16 v29) = .next (.of16 t) ∧ (fields16 0x0C01#16).writeAddr = true ∧ m1.writeAddrWord = t.pc ∧
      t.pc.toNat + 1 < 65536 ∧ t.status = .running :=
  ⟨_, _, by decide, by decide, rfl, rfl, by decide, by decide, by decide, by decide⟩

theorem witness_NextStepRunsWordJustWritten8 :
    ∃ m1 t, v29cfg8.mem.wf ∧ v29cfg8.status = .running ∧ v29cfg8.fetchOpcode = .ok (0x41#8, m1) ∧
      step (.of8 v29cfg8) = .next (.of8 t) ∧ (fields8 0x41#8).writeAddr = true ∧ m1.writeAddrWord = t.pc ∧
      t.pc.toNat + 1 < 256 ∧ t.status = .running :=
  ⟨_, _, by decide, by decide, rfl, rfl, by decide, by decide, by decide, by decide⟩

/-- A step of each clause of StepLeavesPcMemoryOutputHalted. -/
theorem witness_StepLeavesPcMemoryOutputHalted :
    (∃ m1 t iw, v29.mem.wf ∧ v29.status = .running ∧ v29.fetchOpcode = .ok (iw, m1) ∧
      step (.of16 v29) = .next (.of16 t)) ∧
    ∃ m1 t iw, v29cfg8.mem.wf ∧ v29cfg8.status = .running ∧ v29cfg8.fetchOpcode = .ok (iw, m1) ∧
      step (.of8 v29cfg8) = .next (.of8 t) :=
  ⟨⟨_, _, _, by decide, by decide, rfl, rfl⟩, ⟨_, _, _, by decide, by decide, rfl, rfl⟩⟩

/-- A taken jump, a `POKE` and a `HALT`, for the other clauses of what a step leaves. -/
theorem witness_StepLeaves_jump_poke_halt :
    (decode16 0x1003#16).opcode = 3 ∧
    (Mach.operand1 (at16 1#16 [(1#16, 0x50#16)]) ⟨false, false, false, 2⟩).toNat = 0 ∧
    (decode16 0x1004#16).opcode = 4 ∧ (decode16 0x0005#16).opcode = 5 := by decide

/-- A step with all flags set and `argc` 3, and in `CFG8` a `HALT` and another instruction. -/
theorem witness_StepAccessCount :
    (∃ t, (at16 0x30#16 [(0x30#16, 0x1F07#16)]).status = .running ∧
      fields16 0x1F07#16 = fields16 ((at16 0x30#16 [(0x30#16, 0x1F07#16)]).wordAt 0x30#16) ∧
      step (.of16 (at16 0x30#16 [(0x30#16, 0x1F07#16)])) = .next (.of16 t)) ∧
    (∃ t, opcodeField8 ((at8 0x30#8 [(0x30#8, 0xF5#8)]).wordAt 0x30#8) = 5#4 ∧
      step (.of8 (at8 0x30#8 [(0x30#8, 0xF5#8)])) = .next (.of8 t)) ∧
    ∃ t, opcodeField8 ((at8 0x30#8 [(0x30#8, 0xFF#8)]).wordAt 0x30#8) ≠ 5#4 ∧
      step (.of8 (at8 0x30#8 [(0x30#8, 0xFF#8)])) = .next (.of8 t) :=
  ⟨⟨_, by decide, by decide, rfl⟩, ⟨_, by decide, rfl⟩, ⟨_, by decide, rfl⟩⟩

theorem witness_LoadedStepDoesNotDependOnDraws :
    (AgreeButDraws v29 { v29 with draws := 7, in0 := 3#16 } ∧ UsesOnlyLoaded (decode16 (v29.wordAt v29.pc)) ∧
      ∃ t, step (.of16 v29) = .next (.of16 t)) ∧
    AgreeButDraws v29cfg8 { v29cfg8 with draws := 7, in0 := 3#8 } ∧
      UsesOnlyLoaded (decode8 (v29cfg8.wordAt v29cfg8.pc)) ∧ ∃ t, step (.of8 v29cfg8) = .next (.of8 t) :=
  ⟨⟨⟨rfl, rfl, rfl, rfl, rfl, rfl⟩, by unfold UsesOnlyLoaded; decide, _, rfl⟩,
    ⟨rfl, rfl, rfl, rfl, rfl, rfl⟩, by unfold UsesOnlyLoaded; decide, _, rfl⟩

theorem witness_StepKeepsInvariant : StateInv State.reset ∧ StateInv (.of16 faulted16) :=
  ⟨⟨by decide, by decide, fun _ h => nomatch h⟩, ⟨by decide, by decide, fun o h => by
    cases h
    exact ⟨rfl, by decide⟩⟩⟩

theorem witness_StepKeepsHistoryExplained :
    StateInv State.reset ∧ StateExplained (fun _ => 0#16) (fun _ => 0#8) State.reset :=
  ⟨⟨by decide, by decide, fun _ h => nomatch h⟩, ⟨fun _ => rfl, fun before _ _ _ h => (by cases before <;> cases h), rfl⟩⟩

theorem witness_MemReadReturnsWordWritten : v29.mem.wf ∧ (0xFFFF#16 : Word 16) ≠ 0#16 := by decide

theorem witness_CanonicalMemoryIsDeterminedByReads :
    Memory.wf (w := 8) [(3, 5#8), (255, 1#8)] ∧ ¬ Memory.wf (w := 8) [(3, 0#8)] ∧
      ¬ Memory.wf (w := 8) [(4, 5#8), (3, 5#8)] ∧ ¬ Memory.wf (w := 8) [(256, 5#8)] := by decide

/-- The hypotheses of every Completes16, at the last place where the longest instruction fits. -/
theorem witness_Completes16 :
    (at16 0xFFFB#16 []).mem.wf ∧ (at16 0xFFFB#16 []).Fits ⟨true, true, true, 3⟩ ∧
      ¬ (at16 0xFFFC#16 []).Fits ⟨true, true, true, 3⟩ := by decide

/-- The hypotheses of every Completes8. -/
theorem witness_Completes8 :
    (at8 0xFC#8 []).mem.wf ∧ (at8 0xFC#8 []).Fits ⟨true, true, true, 2⟩ ∧
      ¬ (at8 0xFD#8 []).Fits ⟨true, true, true, 2⟩ := by decide

/-- The opcode fields the instructions' statements speak of, each at a word with other bits set. -/
theorem witness_opcode_fields16 :
    opcodeField16 0xFF00#16 = 0#8 ∧ opcodeField16 0xFF01#16 = 1#8 ∧ opcodeField16 0xFF02#16 = 2#8 ∧
      opcodeField16 0xFF03#16 = 3#8 ∧ opcodeField16 0xFF04#16 = 4#8 ∧ opcodeField16 0xFF05#16 = 5#8 ∧
      6 ≤ (opcodeField16 0xFF06#16).toNat ∧ 6 ≤ (opcodeField16 0x00FF#16).toNat := by decide

theorem witness_opcode_fields8 :
    opcodeField8 0xF0#8 = 0#4 ∧ opcodeField8 0xF1#8 = 1#4 ∧ opcodeField8 0xF2#8 = 2#4 ∧ opcodeField8 0xF3#8 = 3#4 ∧
      opcodeField8 0xF4#8 = 4#4 ∧ opcodeField8 0xF5#8 = 5#4 ∧ 6 ≤ (opcodeField8 0xF6#8).toNat ∧
      6 ≤ (opcodeField8 0x0F#8).toNat := by decide

theorem witness_HaltOfCfg8ReturnsAtOnce :
    ((at8 0xFE#8 [(0xFE#8, 0xC5#8)]).status = .running ∧ (at8 0xFE#8 [(0xFE#8, 0xC5#8)]).pc.toNat + 1 < 256 ∧
      opcodeField8 ((at8 0xFE#8 [(0xFE#8, 0xC5#8)]).wordAt 0xFE#8) = 5#4) ∧
    (at8 0xFF#8 [(0xFF#8, 0xC5#8)]).status = .running ∧ (at8 0xFF#8 [(0xFF#8, 0xC5#8)]).pc.toNat + 1 = 256 ∧
      opcodeField8 ((at8 0xFF#8 [(0xFF#8, 0xC5#8)]).wordAt 0xFF#8) = 5#4 := by decide

theorem witness_HaltWordHaltsInOneStep :
    ((at16 0xFFFE#16 [(0xFFFE#16, 5#16)]).status = .running ∧ (at16 0xFFFE#16 [(0xFFFE#16, 5#16)]).pc.toNat + 1 < 65536 ∧
      (at16 0xFFFE#16 [(0xFFFE#16, 5#16)]).wordAt 0xFFFE#16 = 0x0005#16) ∧
    (at8 0xFE#8 [(0xFE#8, 5#8)]).status = .running ∧ (at8 0xFE#8 [(0xFE#8, 5#8)]).pc.toNat + 1 < 256 ∧
      (at8 0xFE#8 [(0xFE#8, 5#8)]).wordAt 0xFE#8 = 0x05#8 := by decide

/-- `JUMP #0xFFFF` in `CFG16`, at the last place where it fits. -/
def jump16 : Mach 16 := at16 0xFFFC#16 [(0xFFFC#16, 0x1003#16), (0xFFFD#16, 0xFFFF#16)]

/-- `JUMP #0xFF` in `CFG8`, at the last place where it fits. -/
def jump8 : Mach 8 := at8 0xFC#8 [(0xFC#8, 0x83#8), (0xFD#8, 0xFF#8)]

theorem witness_UnconditionalJumpGoesToTarget :
    (jump16.status = .running ∧ jump16.pc.toNat + 3 < 65536 ∧ jump16.wordAt jump16.pc = 0x1003#16 ∧
      jump16.wordAt (jump16.pc + 1#16) = 0xFFFF#16 ∧ jump16.wordAt (jump16.pc + 2#16) = 0#16) ∧
    jump8.status = .running ∧ jump8.pc.toNat + 3 < 256 ∧ jump8.wordAt jump8.pc = 0x83#8 ∧
      jump8.wordAt (jump8.pc + 1#8) = 0xFF#8 ∧ jump8.wordAt (jump8.pc + 2#8) = 0#8 := by decide

theorem witness_OtherConfigurationIsRefused :
    (Instr.none16 ⟨false, false, false, 0⟩).cfg = .cfg16 ∧ (Instr.none8 ⟨false, false, false, 1⟩).cfg = .cfg8 := by decide

/-- The hypotheses of every frame: an instruction of each of its shapes that completes. -/
theorem witness_Frames16 :
    (at16 0#16 []).mem.wf ∧ (∃ s, exec (.none16 ⟨true, true, true, 3⟩) (.of16 (at16 0#16 [])) = .next s) ∧
      (∃ s, exec (.unassigned16At6 1#1 ⟨true, true, true, 0⟩) (.of16 (at16 0#16 [])) = .next s) ∧
      (∃ s, exec (.copy16 ⟨true, true, true, 3⟩) (.of16 (at16 0#16 [])) = .next s) ∧
      (∃ s, exec (.add16 ⟨false, true, true, 2⟩) (.of16 (at16 0#16 [])) = .next s) ∧
      (∃ s, exec (.jumpIfZero16 ⟨false, true, true, 2⟩) (.of16 (at16 0#16 [])) = .next s) ∧
      (∃ s, exec (.poke16 ⟨false, true, false, 2⟩) (.of16 (at16 0#16 [])) = .next s) ∧
      ∃ s, exec (.halt16 ⟨false, false, true, 1⟩) (.of16 (at16 0#16 [])) = .next s :=
  ⟨by decide, ⟨_, rfl⟩, ⟨_, rfl⟩, ⟨_, rfl⟩, ⟨_, rfl⟩, ⟨_, rfl⟩, ⟨_, rfl⟩, ⟨_, rfl⟩⟩

theorem witness_Frames8 :
    (at8 0#8 []).mem.wf ∧ (∃ s, exec (.none8 ⟨true, true, true, 2⟩) (.of8 (at8 0#8 [])) = .next s) ∧
      (∃ s, exec (.unassigned8At8 7#3 ⟨true, true, true, 1⟩) (.of8 (at8 0#8 [])) = .next s) ∧
      (∃ s, exec (.copy8 ⟨true, true, true, 1⟩) (.of8 (at8 0#8 [])) = .next s) ∧
      (∃ s, exec (.add8 ⟨false, true, true, 2⟩) (.of8 (at8 0#8 [])) = .next s) ∧
      (∃ s, exec (.jumpIfZero8 ⟨false, true, true, 2⟩) (.of8 (at8 0#8 [])) = .next s) ∧
      (∃ s, exec (.poke8 ⟨false, true, false, 2⟩) (.of8 (at8 0#8 [])) = .next s) ∧
      ∃ s, exec (.halt8 ⟨false, false, true, 1⟩) (.of8 (at8 0#8 [])) = .next s :=
  ⟨by decide, ⟨_, rfl⟩, ⟨_, rfl⟩, ⟨_, rfl⟩, ⟨_, rfl⟩, ⟨_, rfl⟩, ⟨_, rfl⟩, ⟨_, rfl⟩⟩

/-- A run that ends normally after one step, and one that ends in a fault at its first. -/
theorem witness_RunEndsAtMostOnce :
    (∃ t, EndsNormally (.of16 (at16 0x60#16 [(0x60#16, 5#16)])) 1 t) ∧ ∃ r, EndsInFault (.of16 (at16 0xFFFF#16 [])) 0 r :=
  ⟨⟨_, rfl, by decide, fun j u hj hu => by
    obtain rfl : j = 0 := by omega
    cases hu
    rfl⟩, _, _, rfl, rfl⟩

end Sys2Proof.Tests
end

section
/-! The configuration is fixed when the hardware is built (spec/00_scope.md R1): a step of the machine of one
configuration answers a run of that same machine, and an instruction of the other configuration is refused. -/

namespace Sys2Proof.Machine

variable {w : Nat}

/-! ### What the outcome of a run can be -/

theorem runOutcome_eq_next_iff {wrap : Mach w → State} {r : Run w (Mach w)} {t : State} :
    runOutcome wrap r = .next t ↔ ∃ m, r = .ok m ∧ wrap m = t := by
  cases r <;> simp [runOutcome, overrunOutcome]

theorem runOutcome_eq_fault_iff {wrap : Mach w → State} {r : Run w (Mach w)} {kind : OverrunKind} {addr : Nat}
    {t : State} :
    runOutcome wrap r = .fault (.addressOverrun kind addr t) ↔
      ∃ e, r = .error e ∧ e.1.kind = kind ∧ e.1.addr.toNat = addr ∧ wrap e.2 = t := by
  cases r <;> simp [runOutcome, overrunOutcome]

/-! ### A step answers a run of its own machine -/

/-- If the decoded instructions answer runs of the machine they are given to, so does a step request. -/
theorem Mach.request_eq_runOutcome (wrap : Mach w → State) (decode : Word w → Instr)
    (hexec : ∀ iw m, ∃ r, exec (decode iw) (wrap m) = runOutcome wrap r) (m : Mach w) :
    ∃ r, m.request wrap decode = runOutcome wrap r := by
  by_cases hrun : m.status = .running
  · by_cases hpc : m.pc.toNat + 1 < memSize w
    · rw [Mach.request_running wrap decode hrun hpc]
      exact hexec _ _
    · exact ⟨.error _, Mach.request_overrun wrap decode hrun hpc⟩
  · exact ⟨.ok m, Mach.request_not_running wrap decode hrun⟩

theorem exec_of8_eq_runOutcome {i : Instr} (h : i.cfg = .cfg8) (m : Mach 8) :
    ∃ r, exec i (.of8 m) = runOutcome .of8 r := by
  by_cases hh : ∃ f, i = .halt8 f
  · obtain ⟨f, rfl⟩ := hh
    exact ⟨.ok m.setHalted, exec_halt8 f m⟩
  · exact ⟨_, exec_of8 h (not_exists.mp hh) m⟩

theorem step_of16_eq_runOutcome (m : Mach 16) : ∃ r, step (.of16 m) = runOutcome .of16 r :=
  Mach.request_eq_runOutcome .of16 decode16 (fun iw m' => ⟨_, exec_of16 (decode16_cfg iw) m'⟩) m

theorem step_of8_eq_runOutcome (m : Mach 8) : ∃ r, step (.of8 m) = runOutcome .of8 r :=
  Mach.request_eq_runOutcome .of8 decode8 (fun iw m' => exec_of8_eq_runOutcome (decode8_cfg iw) m') m

/-- A step of either machine answers a run whose machine is wrapped in the configuration the step began in. -/
theorem step_eq_runOutcome (s : State) :
    ∃ (w : Nat) (wrap : Mach w → State) (r : Run w (Mach w)),
      step s = runOutcome wrap r ∧ ∀ m, (wrap m).cfg = s.cfg := by
  obtain ⟨m | m⟩ := s
  · obtain ⟨r, hr⟩ := step_of16_eq_runOutcome m
    exact ⟨16, .of16, r, hr, fun _ => rfl⟩
  · obtain ⟨r, hr⟩ := step_of8_eq_runOutcome m
    exact ⟨8, .of8, r, hr, fun _ => rfl⟩

end Sys2Proof.Machine

namespace Sys2Proof

open Sys2Proof.Machine

/-- Settles O18: the state a step answers, next or Faulted, is wrapped in the configuration it began in. -/
theorem configurationNeverChanges : Obligations.ConfigurationNeverChanges := by
  refine ⟨fun s t h => ?next, fun s kind addr t h => ?fault⟩ <;>
    obtain ⟨w, wrap, r, hr, hcfg⟩ := step_eq_runOutcome s
  case next =>
    obtain ⟨m, -, rfl⟩ := runOutcome_eq_next_iff.mp (hr.symm.trans h)
    exact hcfg m
  case fault =>
    obtain ⟨e, -, -, -, rfl⟩ := runOutcome_eq_fault_iff.mp (hr.symm.trans h)
    exact hcfg e.2

/-- Settles O37, from the two refusal laws of `exec`. -/
theorem otherConfigurationIsRefused : Obligations.OtherConfigurationIsRefused :=
  ⟨fun _ m h => exec_cfg16_of8 h m, fun _ m h => exec_cfg8_of16 h m⟩

end Sys2Proof
end

section
/-! One instruction and one step as runs of the machine of either configuration, at any word width: what is proved of
these runs once holds of `exec` and `step` in both (spec/40_step_datapath.md R70 to R74). -/

namespace Sys2Proof.Machine

variable {w : Nat}

/-! ### One instruction -/

/-- The run of an instruction after action 1: the early return of the `HALT` of `CFG8` (R74), or the common datapath
around the opcode's action (R70). -/
def Mach.runInstr (i : Instr) (m : Mach w) : Run w (Mach w) :=
  match i with
  | .halt8 _ => .ok m.setHalted
  | i => m.general i.fields (instrAct i)

theorem Mach.runInstr_halt8 (f : Fields) (m : Mach w) : m.runInstr (.halt8 f) = .ok m.setHalted := rfl

theorem Mach.runInstr_of_ne_halt8 {i : Instr} (h : ∀ f, i ≠ .halt8 f) (m : Mach w) :
    m.runInstr i = m.general i.fields (instrAct i) := by
  unfold Mach.runInstr
  split
  · exact absurd rfl (h _)
  · rfl

theorem ne_halt8_of_cfg16 {i : Instr} (h : i.cfg = .cfg16) (f : Fields) : i ≠ .halt8 f := by
  rintro rfl
  cases h

theorem exec_of16_eq_runInstr {i : Instr} (h : i.cfg = .cfg16) (m : Mach 16) :
    exec i (.of16 m) = runOutcome .of16 (m.runInstr i) := by
  rw [Mach.runInstr_of_ne_halt8 (ne_halt8_of_cfg16 h), exec_of16 h]

theorem exec_of8_eq_runInstr {i : Instr} (h : i.cfg = .cfg8) (m : Mach 8) :
    exec i (.of8 m) = runOutcome .of8 (m.runInstr i) := by
  by_cases hh : ∃ f, i = .halt8 f
  · obtain ⟨f, rfl⟩ := hh
    exact exec_halt8 f m
  · rw [Mach.runInstr_of_ne_halt8 (not_exists.mp hh), exec_of8 h (not_exists.mp hh)]

/-- The result of the common datapath: the opcode's action with the operands ready, then the write-back. -/
def Mach.completed (i : Instr) (m : Mach w) : Mach w :=
  (instrAct i (m.ready i.fields)).writeBack (if i.fields.writeAddr then some m.writeAddrWord else none)

/-- What an instruction can do. -/
theorem Mach.runInstr_cases (i : Instr) (m : Mach w) :
    (∃ f, i = .halt8 f ∧ m.runInstr i = .ok m.setHalted) ∨
    ((∀ f, i ≠ .halt8 f) ∧ m.Fits i.fields ∧ m.runInstr i = .ok (m.completed i)) ∨
    ((∀ f, i ≠ .halt8 f) ∧ ¬ m.Fits i.fields ∧ m.runInstr i = .error m.overrun) := by
  by_cases hh : ∃ f, i = .halt8 f
  · obtain ⟨f, rfl⟩ := hh
    exact .inl ⟨f, rfl, rfl⟩
  · have hne := not_exists.mp hh
    rw [Mach.runInstr_of_ne_halt8 hne]
    by_cases hfits : m.Fits i.fields
    · exact .inr (.inl ⟨hne, hfits, Mach.general_fits hfits _⟩)
    · exact .inr (.inr ⟨hne, hfits, Mach.general_not_fits hfits _⟩)

/-! ### One step -/

/-- The run of a step request (R70 to R72). -/
def Mach.runStep (decode : Word w → Instr) (m : Mach w) : Run w (Mach w) :=
  if m.status = .running then
    match m.fetchOpcode with
    | .ok (iw, m') => m'.runInstr (decode iw)
    | .error e => .error e
  else .ok m

theorem Mach.runStep_not_running {m : Mach w} (decode : Word w → Instr) (h : m.status ≠ .running) :
    m.runStep decode = .ok m := by
  rw [Mach.runStep, if_neg h]

theorem Mach.runStep_fits {m : Mach w} (decode : Word w → Instr) (h : m.status = .running)
    (hpc : m.pc.toNat + 1 < memSize w) :
    m.runStep decode = m.fetchedOpcode.runInstr (decode (m.wordAt m.pc)) := by
  simp only [Mach.runStep, if_pos h, Mach.fetchOpcode_ok hpc]

theorem Mach.runStep_overrun {m : Mach w} (decode : Word w → Instr) (h : m.status = .running)
    (hpc : ¬ m.pc.toNat + 1 < memSize w) :
    m.runStep decode = .error ((m.beginStep.log (.read m.pc (m.wordAt m.pc))).raiseOverrun .pcAdvance
      (BitVec.ofNat (w + 1) (memSize w))) := by
  simp only [Mach.runStep, if_pos h, Mach.fetchOpcode_overrun hpc]

/-- A step request answers the run of the step, if the decoded instructions answer theirs. -/
theorem Mach.request_eq_runStep {wrap : Mach w → State} {decode : Word w → Instr}
    (hexec : ∀ iw m, exec (decode iw) (wrap m) = runOutcome wrap (m.runInstr (decode iw))) (m : Mach w) :
    m.request wrap decode = runOutcome wrap (m.runStep decode) := by
  by_cases hrun : m.status = .running
  · by_cases hpc : m.pc.toNat + 1 < memSize w
    · rw [Mach.request_running wrap decode hrun hpc, Mach.runStep_fits decode hrun hpc, hexec]
    · rw [Mach.request_overrun wrap decode hrun hpc, Mach.runStep_overrun decode hrun hpc, runOutcome]
  · rw [Mach.request_not_running wrap decode hrun, Mach.runStep_not_running decode hrun, runOutcome]

theorem step_of16 (m : Mach 16) : step (.of16 m) = runOutcome .of16 (m.runStep decode16) :=
  Mach.request_eq_runStep (fun iw m => exec_of16_eq_runInstr (decode16_cfg iw) m) m

theorem step_of8 (m : Mach 8) : step (.of8 m) = runOutcome .of8 (m.runStep decode8) :=
  Mach.request_eq_runStep (fun iw m => exec_of8_eq_runInstr (decode8_cfg iw) m) m

/-! ### Fields after the stages of the datapath -/

section
variable (m : Mach w)

@[simp] theorem Mach.fetchedOpcode_mem : m.fetchedOpcode.mem = m.mem := rfl
@[simp] theorem Mach.fetchedOpcode_pc : m.fetchedOpcode.pc = m.pc + 1#w := rfl
@[simp] theorem Mach.fetchedOpcode_halted : m.fetchedOpcode.halted = m.halted := rfl
@[simp] theorem Mach.fetchedOpcode_fault : m.fetchedOpcode.fault = m.fault := rfl
@[simp] theorem Mach.fetchedOpcode_outStream : m.fetchedOpcode.outStream = m.outStream := rfl
@[simp] theorem Mach.fetchedOpcode_events :
    m.fetchedOpcode.events = m.events ++ [.read m.pc (m.wordAt m.pc)] := rfl

variable (f : Fields)

@[simp] theorem Mach.ready_mem : (m.ready f).mem = m.mem := rfl
@[simp] theorem Mach.ready_pc : (m.ready f).pc = m.pcPast f := rfl
@[simp] theorem Mach.ready_in0 : (m.ready f).in0 = m.operand0 f := rfl
@[simp] theorem Mach.ready_in1 : (m.ready f).in1 = m.operand1 f := rfl
@[simp] theorem Mach.ready_in2 : (m.ready f).in2 = m.operand2 f := rfl
@[simp] theorem Mach.ready_out : (m.ready f).out = m.out := rfl
@[simp] theorem Mach.ready_halted : (m.ready f).halted = m.halted := rfl
@[simp] theorem Mach.ready_fault : (m.ready f).fault = m.fault := rfl
@[simp] theorem Mach.ready_outStream : (m.ready f).outStream = m.outStream := rfl
@[simp] theorem Mach.ready_draws : (m.ready f).draws = m.draws := rfl
@[simp] theorem Mach.ready_events :
    (m.ready f).events = m.events ++ m.streamReads f.operandWords ++ m.derefReads f := rfl
@[simp] theorem Mach.ready_wordAt (c : Word w) : (m.ready f).wordAt c = m.wordAt c := rfl

variable (i : Instr)

@[simp] theorem instrAct_in0 : (instrAct i m).in0 = m.in0 := by rw [instrAct_eq]
@[simp] theorem instrAct_in1 : (instrAct i m).in1 = m.in1 := by rw [instrAct_eq]
@[simp] theorem instrAct_in2 : (instrAct i m).in2 = m.in2 := by rw [instrAct_eq]
@[simp] theorem instrAct_draws : (instrAct i m).draws = m.draws := by rw [instrAct_eq]
@[simp] theorem instrAct_wordAt (c : Word w) : (instrAct i m).wordAt c = m.wordAt c := by
  rw [Mach.wordAt, instrAct_mem, Mach.wordAt]

variable (dest : Option (Word w))

@[simp] theorem Mach.writeBack_pc : (m.writeBack dest).pc = m.pc := by rw [Mach.writeBack_eq]
@[simp] theorem Mach.writeBack_in0 : (m.writeBack dest).in0 = m.in0 := by rw [Mach.writeBack_eq]
@[simp] theorem Mach.writeBack_in1 : (m.writeBack dest).in1 = m.in1 := by rw [Mach.writeBack_eq]
@[simp] theorem Mach.writeBack_in2 : (m.writeBack dest).in2 = m.in2 := by rw [Mach.writeBack_eq]
@[simp] theorem Mach.writeBack_out : (m.writeBack dest).out = m.out := by rw [Mach.writeBack_eq]
@[simp] theorem Mach.writeBack_halted : (m.writeBack dest).halted = m.halted := by rw [Mach.writeBack_eq]
@[simp] theorem Mach.writeBack_fault : (m.writeBack dest).fault = m.fault := by rw [Mach.writeBack_eq]
@[simp] theorem Mach.writeBack_outStream : (m.writeBack dest).outStream = m.outStream := by rw [Mach.writeBack_eq]
@[simp] theorem Mach.writeBack_draws : (m.writeBack dest).draws = m.draws := by rw [Mach.writeBack_eq]

/-! The result of the common datapath: the write-back leaves every register as the action left it. -/

@[simp] theorem Mach.completed_pc : (m.completed i).pc = (instrAct i (m.ready i.fields)).pc := by
  simp [Mach.completed]
@[simp] theorem Mach.completed_in0 : (m.completed i).in0 = m.operand0 i.fields := by simp [Mach.completed]
@[simp] theorem Mach.completed_in1 : (m.completed i).in1 = m.operand1 i.fields := by simp [Mach.completed]
@[simp] theorem Mach.completed_in2 : (m.completed i).in2 = m.operand2 i.fields := by simp [Mach.completed]
@[simp] theorem Mach.completed_out : (m.completed i).out = (instrAct i (m.ready i.fields)).out := by
  simp [Mach.completed]
@[simp] theorem Mach.completed_halted : (m.completed i).halted = (instrAct i (m.ready i.fields)).halted := by
  simp [Mach.completed]
@[simp] theorem Mach.completed_fault : (m.completed i).fault = m.fault := by simp [Mach.completed]
@[simp] theorem Mach.completed_outStream : (m.completed i).outStream = (instrAct i (m.ready i.fields)).outStream := by
  simp [Mach.completed]
@[simp] theorem Mach.completed_draws : (m.completed i).draws = m.draws := by simp [Mach.completed]

end

end Sys2Proof.Machine
end

section
/-! The invariant of the machine (spec/10_state.md R10, R19; spec/60_exceptions.md R111): a machine with canonical memory
and no fault record meets it, and the record that a step sets is legal, in a machine that is not halted. -/

namespace Sys2Proof

open Sys2Proof.Machine

variable {w : Nat}

/-! ### What meets the invariant -/

theorem MachInv.of_fault_none {m : Mach w} (hmem : m.mem.wf) (hfault : m.fault = none) : MachInv m where
  memory := hmem
  notBoth := by simp [hfault]
  fault := fun o ho => by simp [hfault] at ho

/-- The overrun of a machine that is not halted leaves a legal record and no halted bit (R111, R113). -/
theorem MachInv.raiseOverrun {m : Mach w} (hmem : m.mem.wf) (hhalted : m.halted = false) :
    MachInv (m.raiseOverrun .pcAdvance (BitVec.ofNat (w + 1) (memSize w))).2 where
  memory := hmem
  notBoth := by simp [hhalted]
  fault := fun o ho => by
    obtain rfl : ⟨.pcAdvance, BitVec.ofNat (w + 1) (memSize w)⟩ = o := Option.some.inj ho
    have hlt : memSize w < 2 ^ (w + 1) := Nat.pow_lt_pow_right Nat.one_lt_two w.lt_succ_self
    exact ⟨rfl, (BitVec.toNat_ofNat _ _).trans (Nat.mod_eq_of_lt hlt)⟩

/-- The machine a run leaves, completed or Faulted, meets the invariant. -/
def RunInv : Run w (Mach w) → Prop
  | .ok m => MachInv m
  | .error e => MachInv e.2

/-! ### Every run keeps the invariant -/

theorem completed_inv {m : Mach w} (hmem : m.mem.wf) (hfault : m.fault = none) (i : Instr) :
    MachInv (m.completed i) :=
  .of_fault_none (Mach.writeBack_wf (by simpa using hmem) _) ((m.completed_fault i).trans hfault)

/-- An instruction run by a machine that is Running. -/
theorem runInstr_inv {m : Mach w} (hmem : m.mem.wf) (hhalted : m.halted = false) (hfault : m.fault = none)
    (i : Instr) : RunInv (m.runInstr i) := by
  obtain ⟨f, -, hr⟩ | ⟨-, -, hr⟩ | ⟨-, -, hr⟩ := m.runInstr_cases i <;> rw [hr]
  · exact .of_fault_none hmem hfault
  · exact completed_inv hmem hfault i
  · exact .raiseOverrun hmem hhalted

theorem runStep_inv {m : Mach w} (h : MachInv m) (decode : Word w → Instr) : RunInv (m.runStep decode) := by
  by_cases hrun : m.status = .running
  · obtain ⟨hhalted, hfault⟩ := Mach.status_running_iff.mp hrun
    by_cases hpc : m.pc.toNat + 1 < memSize w
    · rw [Mach.runStep_fits decode hrun hpc]
      exact runInstr_inv (m := m.fetchedOpcode) h.memory hhalted hfault _
    · rw [Mach.runStep_overrun decode hrun hpc]
      exact .raiseOverrun h.memory hhalted
  · rw [Mach.runStep_not_running decode hrun]
    exact h

/-- The outcome of a run that keeps the invariant carries a state that meets it. -/
theorem runOutcome_inv {wrap : Mach w → State} (hwrap : ∀ m, MachInv m → StateInv (wrap m)) {r : Run w (Mach w)}
    (h : RunInv r) :
    (∀ t, runOutcome wrap r = .next t → StateInv t) ∧
      ∀ kind addr t, runOutcome wrap r = .fault (.addressOverrun kind addr t) → StateInv t := by
  refine ⟨fun t ht => ?next, fun kind addr t ht => ?fault⟩
  case next =>
    obtain ⟨m, rfl, rfl⟩ := runOutcome_eq_next_iff.mp ht
    exact hwrap m h
  case fault =>
    obtain ⟨e, rfl, -, -, rfl⟩ := runOutcome_eq_fault_iff.mp ht
    exact hwrap e.2 h

/-- Settles O22: the run of a step keeps the invariant, in both configurations. -/
theorem stepKeepsInvariant : Obligations.StepKeepsInvariant := by
  rintro ⟨m | m⟩ hs
  · rw [step_of16]
    exact runOutcome_inv (wrap := .of16) (fun _ h => h) (runStep_inv (m := m) hs decode16)
  · rw [step_of8]
    exact runOutcome_inv (wrap := .of8) (fun _ h => h) (runStep_inv (m := m) hs decode8)

end Sys2Proof
end

section
/-! Reset and load (spec/10_state.md R20; spec/70_reset_and_hazards.md R130): memory holds the loader's image, and the
rest of the machine is as reset leaves it. -/

namespace Sys2Proof.Machine

variable {w : Nat}

/-! ### The image -/

theorem imageWord_of_not_written {image : List (Word w × Word w)} {a : Word w} (h : ∀ c ∈ image, c.1 ≠ a) :
    imageWord image a = 0#w := by
  have hnone : image.reverse.find? (fun c => c.1 = a) = none := by simpa using fun b v hbv => h (b, v) hbv
  rw [imageWord, hnone]

theorem imageWord_of_last_written (before : List (Word w × Word w)) {after : List (Word w × Word w)} {a : Word w}
    (v : Word w) (h : ∀ c ∈ after, c.1 ≠ a) : imageWord (before ++ (a, v) :: after) a = v := by
  have hnone : after.reverse.find? (fun c => c.1 = a) = none := by simpa using fun b u hbu => h (b, u) hbu
  simp [imageWord, List.find?_append, hnone]

/-- Memory after reset and load is the image (R20, R130). -/
theorem Mach.boot_wordAt (entry : Word w) (image : List (Word w × Word w)) (a : Word w) :
    (Mach.boot entry image).wordAt a = imageWord image a :=
  Memory.read_load Memory.wf_nil image a

end Sys2Proof.Machine

namespace Sys2Proof

open Sys2Proof.Machine

variable {w : Nat}

theorem boot_inv (entry : Word w) (image : List (Word w × Word w)) : MachInv (Mach.boot entry image) :=
  .of_fault_none (Memory.wf_load Memory.wf_nil image) rfl

theorem boot_historyExplains (entry : Word w) (image : List (Word w × Word w)) :
    HistoryExplains (imageWord image) (Mach.boot entry image) where
  memory := Mach.boot_wordAt entry image
  reads := fun before _ _ _ h => absurd h.symm (by simp [Mach.boot, Mach.reset])
  output := rfl

/-- Settles O7: what is loaded is the image, and its last word at an address is the one it holds. -/
theorem resetLeavesLoadedRunningMachine : Obligations.ResetLeavesLoadedRunningMachine := by
  refine fun w entry image => ⟨rfl, rfl, rfl, rfl, rfl, fun a hnot => ?unloaded, ?loaded⟩
  case unloaded => rw [Mach.boot_wordAt, imageWord_of_not_written hnot]
  case loaded =>
    rintro before after a v rfl hlast
    rw [Mach.boot_wordAt, imageWord_of_last_written before v hlast]

/-- Settles O8: `State.reset` is a boot with nothing loaded. -/
theorem invariantHoldsAfterReset : Obligations.InvariantHoldsAfterReset :=
  ⟨boot_inv 0#16 [], boot_inv, boot_inv⟩

/-- Settles O9: nothing has happened yet, and memory is the image. -/
theorem historyExplainsResetState : Obligations.HistoryExplainsResetState :=
  ⟨fun entry image _ => ⟨rfl, boot_historyExplains entry image⟩,
    fun entry image _ => ⟨rfl, boot_historyExplains entry image⟩⟩

end Sys2Proof
end

section
/-! Halted and Faulted are terminal (spec/10_state.md R14, R19; spec/60_exceptions.md R112). -/

namespace Sys2Proof

open Sys2Proof.Machine

theorem step_of_statusOf_ne_running {s : State} (h : statusOf s ≠ .running) : step s = .next s := by
  obtain ⟨m | m⟩ := s
  · exact Mach.request_not_running .of16 decode16 h
  · exact Mach.request_not_running .of8 decode8 h

theorem statusOf_ne_running_of_isHalted {s : State} (h : isHalted s = true) : statusOf s ≠ .running := by
  obtain ⟨m | m⟩ := s <;>
    exact fun hrun => Bool.false_ne_true ((Mach.status_running_iff.mp hrun).1.symm.trans h)

/-- Where a step changes nothing, no number of steps does. -/
theorem run_of_step_eq_self {s : State} (h : step s = .next s) (n : Nat) : core.run n s = .next s := by
  induction n with
  | zero => rfl
  | succ n ih =>
    have hstep : core.step s = .next s := h
    simp only [Host.Core.run, hstep, ih]

/-- Settles O12: neither state is Running, so a step changes nothing, and so do `n` of them. -/
theorem haltedAndFaultedAreTerminal : Obligations.HaltedAndFaultedAreTerminal := by
  intro s n h
  refine run_of_step_eq_self (step_of_statusOf_ne_running ?_) n
  obtain hhalted | hfaulted := h
  · exact statusOf_ne_running_of_isHalted hhalted
  · simp [hfaulted]

end Sys2Proof
end

section
/-! Frames (spec/10_state.md R22; spec/40_step_datapath.md R79): what the common datapath leaves unchanged, proved once,
and what each action leaves of `out`, `halted` and the output stream. -/

namespace Sys2Proof.Machine

open Sys2Proof.Claims

variable {w : Nat}

/-! ### The common datapath -/

theorem Mach.operand0_unloaded {m : Mach w} {f : Fields} (hargc : f.argc.val = 0) (hread : f.readAddr0 = false) :
    m.operand0 f = m.in0 := by
  simp [Mach.operand0, Mach.loaded0, hargc, hread]

theorem Mach.operand1_unloaded {m : Mach w} {f : Fields} (hargc : f.argc.val ≤ 1) (hread : f.readAddr1 = false) :
    m.operand1 f = m.in1 := by
  simp [Mach.operand1, Mach.loaded1, hargc.not_gt, hread]

theorem Mach.operand2_unloaded {m : Mach w} {f : Fields} (hargc : f.argc.val ≤ 2) : m.operand2 f = m.in2 := by
  simp [Mach.operand2, hargc.not_gt]

/-- The write-back stores at the write-address word alone. -/
theorem Mach.completed_wordAt {m : Mach w} (hm : m.mem.wf) {i : Instr} {a : Word w}
    (ha : ¬ (i.fields.writeAddr = true ∧ a = m.writeAddrWord)) : (m.completed i).wordAt a = m.wordAt a := by
  have hdest : (if i.fields.writeAddr then some m.writeAddrWord else none) ≠ some a := by
    intro h
    split_ifs at h with hflag
    exact ha ⟨hflag, (Option.some.inj h).symm⟩
  rw [Mach.completed, Mach.writeBack_wordAt (by simpa using hm), if_neg hdest, instrAct_wordAt, Mach.ready_wordAt]

theorem Mach.completed_frame {m : Mach w} (hm : m.mem.wf) (i : Instr) : Frame i.fields m (m.completed i) where
  fault := m.completed_fault i
  draws := m.completed_draws i
  in0 := fun hargc hread => (m.completed_in0 i).trans (Mach.operand0_unloaded hargc hread)
  in1 := fun hargc hread => (m.completed_in1 i).trans (Mach.operand1_unloaded hargc hread)
  in2 := fun hargc => (m.completed_in2 i).trans (Mach.operand2_unloaded hargc)
  memory := fun _ ha => Mach.completed_wordAt hm ha

/-- An instruction of the common datapath that answers a next state has completed. -/
theorem Mach.general_eq_ok {m t : Mach w} {i : Instr} (h : m.general i.fields (instrAct i) = .ok t) :
    t = m.completed i := by
  by_cases hfits : m.Fits i.fields
  · rw [Mach.general_fits hfits] at h
    exact (Except.ok.inj h).symm
  · rw [Mach.general_not_fits hfits] at h
    cases h

/-- The frame of an instruction from what its completion leaves, in either configuration. -/
theorem frame_of_exec_next {wrap : Mach w → State} {i : Instr} {own : Mach w → Mach w → Prop}
    (hexec : ∀ m, exec i (wrap m) = runOutcome wrap (m.general i.fields (instrAct i)))
    (hown : ∀ m : Mach w, own m (m.completed i)) (m : Mach w) (s : State) (hm : m.mem.wf)
    (hs : exec i (wrap m) = .next s) : ∃ t, s = wrap t ∧ Frame i.fields m t ∧ own m t := by
  obtain ⟨t, ht, rfl⟩ := runOutcome_eq_next_iff.mp ((hexec m).symm.trans hs)
  obtain rfl := Mach.general_eq_ok ht
  exact ⟨_, rfl, Mach.completed_frame hm i, hown m⟩

theorem frames16_of_completed {i : Instr} (h : i.cfg = .cfg16) {own : Mach 16 → Mach 16 → Prop}
    (hown : ∀ m, own m (m.completed i)) : Frames16 i own :=
  frame_of_exec_next (exec_of16 h) hown

theorem frames8_of_completed {i : Instr} (h : i.cfg = .cfg8) (hh : ∀ f, i ≠ .halt8 f)
    {own : Mach 8 → Mach 8 → Prop} (hown : ∀ m, own m (m.completed i)) : Frames8 i own :=
  frame_of_exec_next (exec_of8 h hh) hown

/-! ### No action -/

theorem completed_keepsOutHaltedStream {i : Instr} (hact : instrAct (w := w) i = Mach.actNone) (m : Mach w) :
    KeepsOutHaltedStream m (m.completed i) := by
  simp [KeepsOutHaltedStream, hact, Mach.actNone]

theorem frames16_of_actNone {i : Instr} (h : i.cfg = .cfg16) (hact : instrAct (w := 16) i = Mach.actNone) :
    Frames16 i KeepsOutHaltedStream :=
  frames16_of_completed h (completed_keepsOutHaltedStream hact)

theorem frames8_of_actNone {i : Instr} (h : i.cfg = .cfg8) (hh : ∀ f, i ≠ .halt8 f)
    (hact : instrAct (w := 8) i = Mach.actNone) : Frames8 i KeepsOutHaltedStream :=
  frames8_of_completed h hh (completed_keepsOutHaltedStream hact)

end Sys2Proof.Machine

namespace Sys2Proof

open Sys2Proof.Machine

/-- Settles O38: each of the ten runs the common datapath around no action. -/
theorem noneAndUnassignedFrame : Obligations.NoneAndUnassignedFrame := fun _ =>
  ⟨frames16_of_actNone rfl rfl, fun _ => frames16_of_actNone rfl rfl, fun _ => frames16_of_actNone rfl rfl,
    fun _ => frames16_of_actNone rfl rfl, fun _ => frames16_of_actNone rfl rfl, fun _ => frames16_of_actNone rfl rfl,
    fun _ => frames16_of_actNone rfl rfl, frames8_of_actNone rfl (by simp) rfl,
    fun _ => frames8_of_actNone rfl (by simp) rfl, fun _ => frames8_of_actNone rfl (by simp) rfl⟩

/-- Settles O39: the actions of `COPY` and `ADD` set `out` alone. -/
theorem copyAndAddFrame : Obligations.CopyAndAddFrame := fun _ =>
  ⟨frames16_of_completed rfl fun m => ⟨m.completed_halted _, m.completed_outStream _⟩,
    frames16_of_completed rfl fun m => ⟨m.completed_halted _, m.completed_outStream _⟩,
    frames8_of_completed rfl (by simp) fun m => ⟨m.completed_halted _, m.completed_outStream _⟩,
    frames8_of_completed rfl (by simp) fun m => ⟨m.completed_halted _, m.completed_outStream _⟩⟩

/-- Settles O40: the action of `JUMP_IF_ZERO` sets `pc` alone. -/
theorem jumpIfZeroFrame : Obligations.JumpIfZeroFrame := fun _ =>
  ⟨frames16_of_completed rfl fun m => ⟨m.completed_out _, m.completed_halted _, m.completed_outStream _⟩,
    frames8_of_completed rfl (by simp) fun m =>
      ⟨m.completed_out _, m.completed_halted _, m.completed_outStream _⟩⟩

/-- Settles O41: the action of `POKE` emits, and keeps every register. -/
theorem pokeFrame : Obligations.PokeFrame := fun _ =>
  ⟨frames16_of_completed rfl fun m => ⟨m.completed_out _, m.completed_halted _⟩,
    frames8_of_completed rfl (by simp) fun m => ⟨m.completed_out _, m.completed_halted _⟩⟩

/-- Settles O42: the action of `HALT` sets `halted` alone, and in `CFG8` the early return does nothing else. -/
theorem haltFrame : Obligations.HaltFrame := by
  refine fun f => ⟨frames16_of_completed rfl fun m => ⟨m.completed_out _, m.completed_outStream _⟩, fun m s hs => ?_⟩
  rw [exec_halt8] at hs
  cases hs
  exact ⟨_, rfl, rfl⟩

end Sys2Proof
end

section
/-! A step that uses only loaded operands does not depend on the scratch registers or on the free values
(spec/10_state.md R12, R13, R22): each stage of the step carries the agreement of two machines over. -/

namespace Sys2Proof.Machine

variable {w : Nat}

/-- The opcode determines the action (R60). -/
theorem instrAct_cases (i : Instr) :
    (i.opcode = 1 ∧ instrAct (w := w) i = Mach.actCopy) ∨ (i.opcode = 2 ∧ instrAct (w := w) i = Mach.actAdd) ∨
    (i.opcode = 3 ∧ instrAct (w := w) i = Mach.actJumpIfZero) ∨
    (i.opcode = 4 ∧ instrAct (w := w) i = Mach.actPoke) ∨ (i.opcode = 5 ∧ instrAct (w := w) i = Mach.actHalt) ∨
    ((i.opcode = 0 ∨ 6 ≤ i.opcode) ∧ instrAct (w := w) i = Mach.actNone) := by
  cases i with
  | copy16 | copy8 => exact .inl ⟨rfl, rfl⟩
  | add16 | add8 => exact .inr (.inl ⟨rfl, rfl⟩)
  | jumpIfZero16 | jumpIfZero8 => exact .inr (.inr (.inl ⟨rfl, rfl⟩))
  | poke16 | poke8 => exact .inr (.inr (.inr (.inl ⟨rfl, rfl⟩)))
  | halt16 | halt8 => exact .inr (.inr (.inr (.inr (.inl ⟨rfl, rfl⟩))))
  | none16 | none8 => exact .inr (.inr (.inr (.inr (.inr ⟨.inl rfl, rfl⟩))))
  | _ =>
    refine .inr (.inr (.inr (.inr (.inr ⟨.inr ?_, rfl⟩))))
    simp only [Instr.opcode]
    omega

end Sys2Proof.Machine

namespace Sys2Proof.Claims

open Sys2Proof.Machine

variable {w : Nat} {m u : Mach w}

/-! ### The operands -/

theorem AgreeButDraws.wordAt (h : AgreeButDraws m u) (a : Word w) : u.wordAt a = m.wordAt a := by
  rw [Mach.wordAt, Mach.wordAt, h.mem]

theorem AgreeButDraws.streamWord (h : AgreeButDraws m u) (k : Nat) : u.streamWord k = m.streamWord k := by
  rw [Mach.streamWord, Mach.streamWord, h.pc, h.wordAt]

theorem AgreeButDraws.writeAddrWord (h : AgreeButDraws m u) : u.writeAddrWord = m.writeAddrWord := by
  rw [Mach.writeAddrWord, Mach.writeAddrWord, h.pc, h.wordAt]

theorem AgreeButDraws.streamReads (h : AgreeButDraws m u) (n : Nat) : u.streamReads n = m.streamReads n := by
  induction n with
  | zero => rfl
  | succ n ih => rw [Mach.streamReads, Mach.streamReads, ih, h.pc, h.streamWord]

theorem AgreeButDraws.loaded0 (h : AgreeButDraws m u) {f : Fields} (hargc : 0 < f.argc.val) :
    u.loaded0 f = m.loaded0 f := by
  rw [Mach.loaded0, Mach.loaded0, if_pos hargc, if_pos hargc, Mach.argWord, Mach.argWord, h.streamWord]

theorem AgreeButDraws.loaded1 (h : AgreeButDraws m u) {f : Fields} (hargc : 1 < f.argc.val) :
    u.loaded1 f = m.loaded1 f := by
  rw [Mach.loaded1, Mach.loaded1, if_pos hargc, if_pos hargc, Mach.argWord, Mach.argWord, h.streamWord]

theorem AgreeButDraws.operand0 (h : AgreeButDraws m u) {f : Fields} (hargc : 0 < f.argc.val) :
    u.operand0 f = m.operand0 f := by
  rw [Mach.operand0, Mach.operand0, h.loaded0 hargc, h.wordAt]

theorem AgreeButDraws.operand1 (h : AgreeButDraws m u) {f : Fields} (hargc : 1 < f.argc.val) :
    u.operand1 f = m.operand1 f := by
  rw [Mach.operand1, Mach.operand1, h.loaded1 hargc, h.wordAt]

theorem AgreeButDraws.derefReads (h : AgreeButDraws m u) {f : Fields} (h0 : f.readAddr0 = true → 0 < f.argc.val)
    (h1 : f.readAddr1 = true → 1 < f.argc.val) : u.derefReads f = m.derefReads f := by
  rw [Mach.derefReads, Mach.derefReads]
  congr 1
  · split_ifs with hread
    · rw [h.loaded0 (h0 hread), h.operand0 (h0 hread)]
    · rfl
  · split_ifs with hread
    · rw [h.loaded1 (h1 hread), h.operand1 (h1 hread)]
    · rfl

/-! ### The stages of a step -/

theorem AgreeButDraws.status (h : AgreeButDraws m u) : u.status = m.status := by
  rw [Mach.status, Mach.status, h.fault, h.halted]

theorem AgreeButDraws.fetchedOpcode (h : AgreeButDraws m u) : AgreeButDraws m.fetchedOpcode u.fetchedOpcode where
  mem := h.mem
  pc := by simp [h.pc]
  halted := h.halted
  fault := h.fault
  outStream := h.outStream
  events := by simp [h.events, h.pc, h.wordAt]

theorem AgreeButDraws.setHalted (h : AgreeButDraws m u) : AgreeButDraws m.setHalted u.setHalted :=
  { h with halted := rfl }

/-- Actions 3 to 5, if only loaded operands are dereferenced. -/
theorem AgreeButDraws.ready (h : AgreeButDraws m u) {f : Fields} (h0 : f.readAddr0 = true → 0 < f.argc.val)
    (h1 : f.readAddr1 = true → 1 < f.argc.val) : AgreeButDraws (m.ready f) (u.ready f) where
  mem := h.mem
  pc := by simp [Mach.pcPast, h.pc]
  halted := h.halted
  fault := h.fault
  outStream := h.outStream
  events := by simp [h.events, h.streamReads, h.derefReads h0 h1]

/-- Action 6, if the input registers that the opcode's action reads outside `out` agree. -/
theorem AgreeButDraws.instrAct (h : AgreeButDraws m u) {i : Instr} (h0 : i.opcode = 3 → u.in0 = m.in0)
    (h1 : i.opcode = 3 ∨ i.opcode = 4 → u.in1 = m.in1) :
    AgreeButDraws (Machine.instrAct i m) (Machine.instrAct i u) := by
  obtain ⟨-, hact⟩ | ⟨-, hact⟩ | ⟨hop, hact⟩ | ⟨hop, hact⟩ | ⟨-, hact⟩ | ⟨-, hact⟩ := instrAct_cases (w := w) i <;>
    rw [hact]
  · exact { h with }
  · exact { h with }
  · exact { h with pc := by simp [Mach.actJumpIfZero, h0 hop, h1 (.inl hop), h.pc] }
  · exact { h with
      outStream := by simp [Mach.actPoke, h1 (.inr hop), h.outStream]
      events := by simp [Mach.actPoke, h1 (.inr hop), h.events] }
  · exact h.setHalted
  · exact h

/-- The result of `COPY` and of `ADD` is that of their operands. -/
theorem instrAct_out_congr {i : Instr} (hop : i.opcode = 1 ∨ i.opcode = 2) (h0 : u.in0 = m.in0)
    (h1 : i.opcode = 2 → u.in1 = m.in1) : (Machine.instrAct i u).out = (Machine.instrAct i m).out := by
  obtain ⟨-, hact⟩ | ⟨hadd, hact⟩ | hother := instrAct_cases (w := w) i
  · simp [hact, Mach.actCopy, h0]
  · simp [hact, Mach.actAdd, h0, h1 hadd]
  · omega

/-- Action 7, if what it stores agrees. -/
theorem AgreeButDraws.writeBack (h : AgreeButDraws m u) {dest : Option (Word w)}
    (hout : dest.isSome = true → u.out = m.out) : AgreeButDraws (m.writeBack dest) (u.writeBack dest) := by
  cases dest with
  | none => exact h
  | some a =>
    have hout := hout rfl
    exact { h with
      mem := by simp [Mach.writeBack, h.mem, hout]
      events := by simp [Mach.writeBack, h.events, hout] }

theorem AgreeButDraws.completed (h : AgreeButDraws m u) {i : Instr} (hi : UsesOnlyLoaded i) :
    AgreeButDraws (m.completed i) (u.completed i) := by
  obtain ⟨hderef0, hderef1, hcopy, hbinary, hstore⟩ := hi
  have hready := h.ready hderef0 hderef1
  rw [Mach.completed, Mach.completed, h.writeAddrWord]
  refine (hready.instrAct (fun hop => ?in0) fun hop => ?in1).writeBack fun hdest => ?out
  case in0 => exact h.operand0 (Nat.zero_lt_one.trans (hbinary (by simp [hop])))
  case in1 => exact h.operand1 (hbinary (by simp [hop]))
  case out =>
    have hflag : i.fields.writeAddr = true := by
      by_contra hflag
      simp [hflag] at hdest
    have hop := hstore hflag
    refine instrAct_out_congr hop (h.operand0 ?_) fun hadd => h.operand1 (hbinary (.inl hadd))
    obtain hone | htwo := hop
    · exact hcopy hone
    · exact Nat.zero_lt_one.trans (hbinary (.inl htwo))

/-! ### The step -/

theorem AgreeButDraws.runInstr (h : AgreeButDraws m u) {i : Instr} (hi : UsesOnlyLoaded i) {t : Mach w}
    (ht : m.runInstr i = .ok t) : ∃ v, u.runInstr i = .ok v ∧ AgreeButDraws t v := by
  obtain ⟨f, rfl, hr⟩ | ⟨hne, hfits, hr⟩ | ⟨-, -, hr⟩ := m.runInstr_cases i <;> rw [hr] at ht <;> cases ht
  · exact ⟨_, u.runInstr_halt8 f, h.setHalted⟩
  · have hfits' : u.Fits i.fields := by rwa [Mach.Fits, h.pc]
    exact ⟨_, (u.runInstr_of_ne_halt8 hne).trans (Mach.general_fits hfits' _), h.completed hi⟩

theorem AgreeButDraws.runStep (h : AgreeButDraws m u) {decode : Word w → Instr}
    (hi : UsesOnlyLoaded (decode (m.wordAt m.pc))) {t : Mach w} (ht : m.runStep decode = .ok t) :
    ∃ v, u.runStep decode = .ok v ∧ (m.status = .running → AgreeButDraws t v) := by
  by_cases hrun : m.status = .running
  · by_cases hpc : m.pc.toNat + 1 < memSize w
    · rw [Mach.runStep_fits decode hrun hpc] at ht
      obtain ⟨v, hv, htv⟩ := h.fetchedOpcode.runInstr hi ht
      rw [Mach.runStep_fits decode (h.status.trans hrun) (by rwa [h.pc]), h.pc, h.wordAt]
      exact ⟨v, hv, fun _ => htv⟩
    · rw [Mach.runStep_overrun decode hrun hpc] at ht
      cases ht
  · exact ⟨u, Mach.runStep_not_running decode (by rwa [h.status]), fun h => absurd h hrun⟩

/-- The step of either configuration, from its run. -/
theorem AgreeButDraws.step {wrap : Mach w → State} (hwrap : Function.Injective wrap) {decode : Word w → Instr}
    (hstep : ∀ m, Machine.step (wrap m) = runOutcome wrap (m.runStep decode)) (m u t : Mach w)
    (h : AgreeButDraws m u) (hi : UsesOnlyLoaded (decode (m.wordAt m.pc)))
    (ht : Machine.step (wrap m) = .next (wrap t)) :
    ∃ v, Machine.step (wrap u) = .next (wrap v) ∧ (m.status = .running → AgreeButDraws t v) := by
  obtain ⟨t', hrun, heq⟩ := runOutcome_eq_next_iff.mp ((hstep m).symm.trans ht)
  obtain rfl := hwrap heq
  obtain ⟨v, hv, htv⟩ := h.runStep hi hrun
  exact ⟨v, (hstep u).trans (runOutcome_eq_next_iff.mpr ⟨v, hv, rfl⟩), htv⟩

end Sys2Proof.Claims

namespace Sys2Proof

open Sys2Proof.Machine Sys2Proof.Claims

/-- Settles O21: every stage of the step carries the agreement over, in both configurations. -/
theorem loadedStepDoesNotDependOnDraws : Obligations.LoadedStepDoesNotDependOnDraws :=
  ⟨AgreeButDraws.step (fun _ _ h => by cases h; rfl) step_of16,
    AgreeButDraws.step (fun _ _ h => by cases h; rfl) step_of8⟩

end Sys2Proof
end

section
/-! Memory (spec/20_memory.md R30, R32, R33): the access primitives, and that a canonical memory is the data its reads
say. -/

namespace Sys2Proof.Machine

variable {w : Nat}

/-! ### Canonical memories that read alike -/

/-- Below the first entry of a canonical memory, and at it in the rest, nothing is listed. -/
theorem Memory.read_tail_of_le {k : Nat} {u : Word w} {rest : Memory w} (h : Memory.wf ((k, u) :: rest)) {a : Nat}
    (ha : a ≤ k) : Memory.read rest a = 0#w :=
  Memory.read_below fun c hc => ha.trans_lt ((List.pairwise_cons.mp h.1).1 c hc)

theorem Memory.read_of_lt_head {k : Nat} {u : Word w} {rest : Memory w} (h : Memory.wf ((k, u) :: rest)) {a : Nat}
    (ha : a < k) : Memory.read ((k, u) :: rest) a = 0#w := by
  rw [Memory.read_cons, if_neg ha.ne', Memory.read_tail_of_le h ha.le]

/-- If two canonical memories read alike, the first address of one is not below that of the other. -/
theorem Memory.head_not_lt {k l : Nat} {u v : Word w} {rest rest' : Memory w} (hm : Memory.wf ((k, u) :: rest))
    (hn : Memory.wf ((l, v) :: rest'))
    (h : ∀ a < memSize w, Memory.read ((k, u) :: rest) a = Memory.read ((l, v) :: rest') a) : ¬ k < l := by
  intro hlt
  have hk : k < memSize w := (hm.2 (k, u) (by simp)).1
  exact Memory.read_head_ne_zero hm ((h k hk).trans (Memory.read_of_lt_head hn hlt))

theorem Memory.ext_of_wf {m n : Memory w} (hm : m.wf) (hn : n.wf) (h : ∀ a < memSize w, m.read a = n.read a) :
    m = n := by
  induction m generalizing n with
  | nil =>
    cases n with
    | nil => rfl
    | cons d rest' => exact absurd (h d.1 (hn.2 d (by simp)).1).symm (Memory.read_head_ne_zero hn)
  | cons c rest ih =>
    cases n with
    | nil => exact absurd (h c.1 (hm.2 c (by simp)).1) (Memory.read_head_ne_zero hm)
    | cons d rest' =>
      obtain ⟨k, u⟩ := c
      obtain ⟨l, v⟩ := d
      obtain rfl : k = l := Nat.le_antisymm
        (not_lt.mp (Memory.head_not_lt hn hm fun a ha => (h a ha).symm)) (not_lt.mp (Memory.head_not_lt hm hn h))
      have huv : u = v := by simpa [Memory.read_cons] using h k (hm.2 (k, u) (by simp)).1
      have htail : rest = rest' := ih (Memory.wf_tail hm) (Memory.wf_tail hn) fun a ha => by
        by_cases hle : a ≤ k
        · rw [Memory.read_tail_of_le hm hle, Memory.read_tail_of_le hn hle]
        · have hne : k ≠ a := by omega
          simpa [Memory.read_cons, hne] using h a ha
      rw [huv, htail]

end Sys2Proof.Machine

namespace Sys2Proof

open Sys2Proof.Machine

/-- Settles O25: the first entries agree, and so do the rests, since every address in range is a word. -/
theorem canonicalMemoryIsDeterminedByReads : Obligations.CanonicalMemoryIsDeterminedByReads :=
  fun _ _ _ hm hn h => Memory.ext_of_wf hm hn fun a ha => by
    simpa [Nat.mod_eq_of_lt ha] using h (BitVec.ofNat _ a)

/-- Settles O24: the word at every address after a write, and the two primitives unfolded once. -/
theorem memReadReturnsWordWritten : Obligations.MemReadReturnsWordWritten := by
  refine fun w m a v hm => ⟨a.isLt, ?written, fun b hb => ?others, rfl, rfl, rfl⟩
  case written => exact (Mach.wordAt_memWrite hm a v a).trans (if_pos rfl)
  case others => exact (Mach.wordAt_memWrite hm a v b).trans (if_neg hb)

end Sys2Proof
end

section
/-! The event history explains the machine (spec/20_memory.md R39; spec/10_state.md R17): every stage of a step carries
the explanation over, completed or Faulted. -/

namespace Sys2Proof.Machine

variable {w : Nat}

/-! ### The reads of an instruction are reads of the memory it starts from -/

/-- The event is a read of the word that the machine holds at its address. -/
def Mach.IsRead (m : Mach w) (e : Event w) : Prop := ∃ a, e = .read a (m.wordAt a)

theorem Mach.isRead_of_mem_streamReads {m : Mach w} {n : Nat} {e : Event w} (h : e ∈ m.streamReads n) :
    m.IsRead e := by
  induction n with
  | zero => cases h
  | succ n ih =>
    obtain h | h := List.mem_append.mp h
    · exact ih h
    · exact ⟨_, List.mem_singleton.mp h⟩

theorem Mach.isRead_of_mem_derefReads {m : Mach w} {f : Fields} {e : Event w} (h : e ∈ m.derefReads f) :
    m.IsRead e := by
  obtain h | h := List.mem_append.mp h <;> split_ifs at h with hread
  · exact ⟨m.loaded0 f, by simpa [Mach.operand0, hread] using h⟩
  · cases h
  · exact ⟨m.loaded1 f, by simpa [Mach.operand1, hread] using h⟩
  · cases h

/-! ### A run and its outcome -/

/-- The machine a run leaves, completed or Faulted, has the property. -/
def Run.Leaves (P : Mach w → Prop) : Run w (Mach w) → Prop
  | .ok m => P m
  | .error e => P e.2

/-- The outcome of a run carries the machine that the run leaves. -/
theorem runOutcome_leaves {wrap : Mach w → State} {P : Mach w → Prop} {Q : State → Prop}
    (hwrap : ∀ m, P m → Q (wrap m)) {r : Run w (Mach w)} (h : Run.Leaves P r) :
    (∀ t, runOutcome wrap r = .next t → Q t) ∧
      ∀ kind addr t, runOutcome wrap r = .fault (.addressOverrun kind addr t) → Q t := by
  refine ⟨fun t ht => ?next, fun kind addr t ht => ?fault⟩
  case next =>
    obtain ⟨m, rfl, rfl⟩ := runOutcome_eq_next_iff.mp ht
    exact hwrap m h
  case fault =>
    obtain ⟨e, rfl, -, -, rfl⟩ := runOutcome_eq_fault_iff.mp ht
    exact hwrap e.2 h

end Sys2Proof.Machine

namespace Sys2Proof

open Sys2Proof.Machine

variable {w : Nat} {image : Word w → Word w} {m : Mach w}

/-! ### The stages of a step -/

/-- A history that grows by reads of the machine's own memory goes on explaining it. -/
theorem HistoryExplains.append_reads (h : HistoryExplains image m) {es : List (Event w)} (hes : ∀ e ∈ es, m.IsRead e) :
    HistoryExplains image { m with events := m.events ++ es } := by
  induction es generalizing m with
  | nil => exact h.congr rfl (List.append_nil _) rfl
  | cons e es ih =>
    obtain ⟨a, rfl⟩ := hes e (by simp)
    have htail := ih (h.log_read a) fun e he => hes e (by simp [he])
    exact htail.congr rfl (by simp) rfl

theorem HistoryExplains.fetchedOpcode (h : HistoryExplains image m) : HistoryExplains image m.fetchedOpcode :=
  (h.log_read m.pc).congr rfl rfl rfl

/-- Actions 3 to 5. -/
theorem HistoryExplains.ready (h : HistoryExplains image m) (f : Fields) : HistoryExplains image (m.ready f) := by
  have hreads : ∀ e ∈ m.streamReads f.operandWords ++ m.derefReads f, m.IsRead e := fun e he =>
    (List.mem_append.mp he).elim Mach.isRead_of_mem_streamReads Mach.isRead_of_mem_derefReads
  exact (h.append_reads hreads).congr rfl (by simp) rfl

/-- Action 6. -/
theorem HistoryExplains.instrAct (h : HistoryExplains image m) (i : Instr) :
    HistoryExplains image (Machine.instrAct i m) := by
  obtain ⟨-, hact⟩ | ⟨-, hact⟩ | ⟨-, hact⟩ | ⟨-, hact⟩ | ⟨-, hact⟩ | ⟨-, hact⟩ := instrAct_cases (w := w) i <;>
    rw [hact]
  · exact h.congr rfl rfl rfl
  · exact h.congr rfl rfl rfl
  · exact h.congr rfl rfl rfl
  · exact h.emit _
  · exact h.congr rfl rfl rfl
  · exact h

/-- Action 7. -/
theorem HistoryExplains.writeBack (h : HistoryExplains image m) (hm : m.mem.wf) (dest : Option (Word w)) :
    HistoryExplains image (m.writeBack dest) := by
  cases dest with
  | none => exact h
  | some a => exact h.memWrite hm a m.out

theorem HistoryExplains.completed (h : HistoryExplains image m) (hm : m.mem.wf) (i : Instr) :
    HistoryExplains image (m.completed i) :=
  ((h.ready i.fields).instrAct i).writeBack (by simpa using hm) _

theorem HistoryExplains.raiseOverrun (h : HistoryExplains image m) (kind : OverrunKind) (addr : BitVec (w + 1)) :
    HistoryExplains image (m.raiseOverrun kind addr).2 :=
  h.congr rfl rfl rfl

theorem HistoryExplains.overrun (h : HistoryExplains image m) : HistoryExplains image m.overrun.2 :=
  (h.append_reads fun _ => Mach.isRead_of_mem_streamReads).raiseOverrun _ _

/-! ### The step -/

theorem HistoryExplains.runInstr (h : HistoryExplains image m) (hm : m.mem.wf) (i : Instr) :
    Run.Leaves (HistoryExplains image) (m.runInstr i) := by
  obtain ⟨f, -, hr⟩ | ⟨-, -, hr⟩ | ⟨-, -, hr⟩ := m.runInstr_cases i <;> rw [hr]
  · exact h.congr rfl rfl rfl
  · exact h.completed hm i
  · exact h.overrun

theorem HistoryExplains.runStep (h : HistoryExplains image m) (hm : m.mem.wf) (decode : Word w → Instr) :
    Run.Leaves (HistoryExplains image) (m.runStep decode) := by
  by_cases hrun : m.status = .running
  · by_cases hpc : m.pc.toNat + 1 < memSize w
    · rw [Mach.runStep_fits decode hrun hpc]
      exact h.fetchedOpcode.runInstr hm _
    · rw [Mach.runStep_overrun decode hrun hpc]
      exact (h.log_read m.pc).congr rfl rfl rfl
  · rw [Mach.runStep_not_running decode hrun]
    exact h

/-- Settles O23: the run of a step leaves a machine that its history explains, in both configurations. -/
theorem stepKeepsHistoryExplained : Obligations.StepKeepsHistoryExplained := by
  rintro image16 image8 ⟨m | m⟩ hinv h
  · rw [step_of16]
    exact runOutcome_leaves (wrap := .of16) (fun _ ht => ht)
      (HistoryExplains.runStep (image := image16) h (MachInv.memory hinv) decode16)
  · rw [step_of8]
    exact runOutcome_leaves (wrap := .of8) (fun _ ht => ht)
      (HistoryExplains.runStep (image := image8) h (MachInv.memory hinv) decode8)

end Sys2Proof
end

section
/-! What a completed step of a Running machine is (spec/40_step_datapath.md R70, R74), and its accesses
(spec/20_memory.md R43, R44). -/

namespace Sys2Proof.Machine

open Sys2Proof.Claims

variable {w : Nat}

/-! ### Inversion -/

/-- What a completed step of a Running machine can have done. -/
theorem Mach.runStep_eq_ok {m t : Mach w} {decode : Word w → Instr} (hrun : m.status = .running)
    (h : m.runStep decode = .ok t) :
    (∃ f, decode (m.wordAt m.pc) = .halt8 f ∧ t = m.fetchedOpcode.setHalted) ∨
    ((∀ f, decode (m.wordAt m.pc) ≠ .halt8 f) ∧ t = m.fetchedOpcode.completed (decode (m.wordAt m.pc))) := by
  by_cases hpc : m.pc.toNat + 1 < memSize w
  · rw [Mach.runStep_fits decode hrun hpc] at h
    obtain ⟨f, hi, hr⟩ | ⟨hne, -, hr⟩ | ⟨-, -, hr⟩ := m.fetchedOpcode.runInstr_cases (decode (m.wordAt m.pc)) <;>
      rw [hr] at h <;> cases h
    · exact .inl ⟨f, hi, rfl⟩
    · exact .inr ⟨hne, rfl⟩
  · rw [Mach.runStep_overrun decode hrun hpc] at h
    cases h

/-- A step of the machine of one configuration that answers a next state is a run that completed. -/
theorem runStep_eq_ok_of_step {wrap : Mach w → State} (hwrap : Function.Injective wrap) {decode : Word w → Instr}
    (hstep : ∀ m, step (wrap m) = runOutcome wrap (m.runStep decode)) {m t : Mach w}
    (h : step (wrap m) = .next (wrap t)) : m.runStep decode = .ok t := by
  obtain ⟨t', hr, ht⟩ := runOutcome_eq_next_iff.mp ((hstep m).symm.trans h)
  rwa [← hwrap ht]

theorem of16_injective : Function.Injective State.of16 := fun _ _ h => by cases h; rfl

theorem of8_injective : Function.Injective State.of8 := fun _ _ h => by cases h; rfl

theorem decode16_ne_halt8 (iw : Word 16) (f : Fields) : decode16 iw ≠ .halt8 f :=
  ne_halt8_of_cfg16 (decode16_cfg iw) f

/-- The early return is that of opcode 5 of `CFG8` alone (R74). -/
theorem exists_decode8_eq_halt8_iff {iw : Word 8} : (∃ f, decode8 iw = .halt8 f) ↔ opcodeField8 iw = 5#4 := by
  rw [decode8, select8]
  split_ifs <;> simp_all

/-! ### The accesses -/

/-- An action adds to the history what it adds to the output stream, and accesses no memory. -/
theorem instrAct_emits (i : Instr) (m : Mach w) : ∃ bytes : List Byte,
    (instrAct i m).outStream = m.outStream ++ bytes ∧ (instrAct i m).events = m.events ++ bytes.map .emit := by
  obtain ⟨-, hact⟩ | ⟨-, hact⟩ | ⟨-, hact⟩ | ⟨-, hact⟩ | ⟨-, hact⟩ | ⟨-, hact⟩ := instrAct_cases (w := w) i <;>
    rw [hact]
  case inr.inr.inr.inl => exact ⟨[lowByte m.in1], rfl, rfl⟩
  all_goals exact ⟨[], by simp [Mach.actCopy, Mach.actAdd, Mach.actJumpIfZero, Mach.actHalt, Mach.actNone]⟩

@[simp] theorem readCount_map_emit (bytes : List Byte) : readCount (bytes.map (Event.emit (w := w))) = 0 := by
  induction bytes with
  | nil => rfl
  | cons b bytes ih => simpa [readCount] using ih

@[simp] theorem writeCount_map_emit (bytes : List Byte) : writeCount (bytes.map (Event.emit (w := w))) = 0 := by
  induction bytes with
  | nil => rfl
  | cons b bytes ih => simpa [writeCount] using ih

/-- The event of the write-back, if the flag is set. -/
def Mach.writeBackEvents (m : Mach w) (i : Instr) : List (Event w) :=
  if i.fields.writeAddr then [.write m.writeAddrWord (m.completed i).out] else []

/-- The history of an instruction of the common datapath, in order (R43). -/
theorem Mach.completed_events (m : Mach w) (i : Instr) : ∃ bytes : List Byte,
    (m.completed i).events = m.events ++ (m.streamReads i.fields.operandWords ++ m.derefReads i.fields
      ++ bytes.map .emit) ++ m.writeBackEvents i := by
  obtain ⟨bytes, -, hevents⟩ := instrAct_emits i (m.ready i.fields)
  refine ⟨bytes, ?_⟩
  rw [Mach.writeBackEvents, Mach.completed_out, Mach.completed, Mach.writeBack_eq]
  cases i.fields.writeAddr <;> simp [hevents]

/-- The accesses of a completed step of the common datapath (R44). -/
theorem Mach.completed_accesses (m : Mach w) (i : Instr) :
    AccessesAre m (m.fetchedOpcode.completed i)
      (1 + i.fields.writeAddr.toNat + i.fields.argc.val + i.fields.readAddr0.toNat + i.fields.readAddr1.toNat)
      i.fields.writeAddr.toNat := by
  obtain ⟨bytes, hevents⟩ := m.fetchedOpcode.completed_events i
  refine ⟨.read m.pc (m.wordAt m.pc) :: (m.fetchedOpcode.streamReads i.fields.operandWords
    ++ m.fetchedOpcode.derefReads i.fields ++ bytes.map .emit), m.fetchedOpcode.writeBackEvents i, ?_, ?_, ?_, ?_⟩
  · simp [hevents]
  · simp only [readCount, readCount_append, readCount_streamReads, readCount_derefReads, readCount_map_emit,
      Fields.operandWords]
    omega
  · simp [writeCount]
  · rw [Mach.writeBackEvents]
    cases i.fields.writeAddr <;> simp [readCount, writeCount, emitted]

/-- The accesses of the early return: the fetch of the opcode word (R44, R74). -/
theorem Mach.halted_accesses (m : Mach w) : AccessesAre m m.fetchedOpcode.setHalted 1 0 :=
  ⟨[.read m.pc (m.wordAt m.pc)], [], by simp, rfl, rfl, rfl, rfl, rfl⟩

/-! ### The greatest numbers of reads -/

theorem reads_le (f : Fields) {n : Nat} (h : f.argc.val ≤ n) :
    1 + f.writeAddr.toNat + f.argc.val + f.readAddr0.toNat + f.readAddr1.toNat ≤ n + 4 := by
  have := f.writeAddr.toNat_le
  have := f.readAddr0.toNat_le
  have := f.readAddr1.toNat_le
  omega

theorem fields8_argc_le (iw : Word 8) : (fields8 iw).argc.val ≤ 2 := by
  have := (iw.extractLsb' 7 1).isLt
  simp only [fields8]
  omega

end Sys2Proof.Machine

namespace Sys2Proof

open Sys2Proof.Machine

/-- Settles O20: a completed step is the common datapath or the early return, and the history of each is known. -/
theorem stepAccessCount : Obligations.StepAccessCount := by
  constructor
  case left =>
    rintro m t f hrun rfl h
    obtain ⟨f, hi, -⟩ | ⟨-, rfl⟩ := Mach.runStep_eq_ok hrun (runStep_eq_ok_of_step of16_injective step_of16 h)
    · exact absurd hi (decode16_ne_halt8 _ f)
    · refine ⟨reads_le _ (Nat.le_of_lt_succ (Fin.isLt _)), ?_⟩
      simpa using m.completed_accesses (decode16 (m.wordAt m.pc))
  case right =>
    rintro m t f hrun rfl h
    obtain ⟨f, hi, rfl⟩ | ⟨hne, rfl⟩ := Mach.runStep_eq_ok hrun (runStep_eq_ok_of_step of8_injective step_of8 h)
    · rw [if_pos (exists_decode8_eq_halt8_iff.mp ⟨f, hi⟩)]
      exact m.halted_accesses
    · rw [if_neg fun hop => not_exists.mpr hne (exists_decode8_eq_halt8_iff.mpr hop)]
      refine ⟨reads_le _ (fields8_argc_le _), ?_⟩
      simpa using m.completed_accesses (decode8 (m.wordAt m.pc))

end Sys2Proof
end

section
/-! A step fetches the word that the step before it wrote at `pc` (spec/20_memory.md R41; spec/40_step_datapath.md
R85). -/

namespace Sys2Proof.Machine

variable {w : Nat}

theorem Mach.fetchOpcode_eq_ok {m m1 : Mach w} {iw : Word w} (h : m.fetchOpcode = .ok (iw, m1)) :
    iw = m.wordAt m.pc ∧ m1 = m.fetchedOpcode := by
  by_cases hpc : m.pc.toNat + 1 < memSize w
  · rw [Mach.fetchOpcode_ok hpc] at h
    cases h
    exact ⟨rfl, rfl⟩
  · rw [Mach.fetchOpcode_overrun hpc] at h
    cases h

/-- A flagged instruction leaves its result at the write-address word. -/
theorem Mach.completed_wordAt_writeAddrWord {m : Mach w} (hm : m.mem.wf) {i : Instr}
    (hflag : i.fields.writeAddr = true) : (m.completed i).wordAt m.writeAddrWord = (m.completed i).out := by
  rw [Mach.completed_out, Mach.completed, Mach.writeBack_wordAt (by simpa using hm), if_pos hflag, if_pos rfl]

/-- A completed step that leaves the machine Running with `pc` at its write-address word leaves its result there. -/
theorem Mach.runStep_wordAt_pc {m m1 t : Mach w} {iw : Word w} {decode : Word w → Instr} (hm : m.mem.wf)
    (hrun : m.status = .running) (hfetch : m.fetchOpcode = .ok (iw, m1)) (h : m.runStep decode = .ok t)
    (hflag : (decode iw).fields.writeAddr = true) (haddr : m1.writeAddrWord = t.pc) (htrun : t.status = .running) :
    t.wordAt t.pc = t.out := by
  obtain ⟨rfl, rfl⟩ := Mach.fetchOpcode_eq_ok hfetch
  obtain ⟨f, -, rfl⟩ | ⟨-, rfl⟩ := Mach.runStep_eq_ok hrun h
  · exact absurd (Mach.status_running_iff.mp htrun).1 (by simp)
  · rw [← haddr]
    exact Mach.completed_wordAt_writeAddrWord (m := m.fetchedOpcode) hm hflag

/-- The machine of either configuration: `hstep` and `hfields` are the laws of its step and its decoder. -/
theorem Mach.request_runs_word_written {wrap : Mach w → State} (hwrap : Function.Injective wrap)
    {decode : Word w → Instr} (hstep : ∀ m, step (wrap m) = runOutcome wrap (m.runStep decode))
    {fields : Word w → Fields} (hfields : ∀ iw, (decode iw).fields = fields iw) (m m1 t : Mach w) (iw : Word w)
    (hm : m.mem.wf) (hrun : m.status = .running) (hfetch : m.fetchOpcode = .ok (iw, m1))
    (h : step (wrap m) = .next (wrap t)) (hflag : (fields iw).writeAddr = true) (haddr : m1.writeAddrWord = t.pc)
    (hpc : t.pc.toNat + 1 < memSize w) (htrun : t.status = .running) :
    ∃ t1, t.fetchOpcode = .ok (t.out, t1) ∧ t.request wrap decode = exec (decode t.out) (wrap t1) := by
  have hword : t.wordAt t.pc = t.out := Mach.runStep_wordAt_pc hm hrun hfetch
    (runStep_eq_ok_of_step hwrap hstep h) (hfields iw ▸ hflag) haddr htrun
  rw [← hword]
  exact ⟨t.fetchedOpcode, Mach.fetchOpcode_ok hpc, Mach.request_running wrap decode htrun hpc⟩

end Sys2Proof.Machine

namespace Sys2Proof

open Sys2Proof.Machine

/-- Settles O26: the word at the `pc` that the step leaves is its result, and that is the word the next step fetches. -/
theorem nextStepRunsWordJustWritten : Obligations.NextStepRunsWordJustWritten :=
  ⟨Mach.request_runs_word_written of16_injective step_of16 decode16_fields,
    Mach.request_runs_word_written of8_injective step_of8 decode8_fields⟩

end Sys2Proof
end

section
/-! The bits of an opcode word (spec/30_encoding.md R51, R52, R55): the fields a word says, by arithmetic, and the word
as the sum of its fields (R63). -/

namespace Sys2Proof

/-! ### Bits by arithmetic -/

theorem toNat_extractLsb'_eq_div_mod {n : Nat} (x : BitVec n) (k m : Nat) :
    (x.extractLsb' k m).toNat = x.toNat / 2 ^ k % 2 ^ m := by
  rw [BitVec.extractLsb'_toNat, Nat.shiftRight_eq_div_pow]

/-! ### The fields of a word -/

section
variable (iw : Word 16)

theorem opcodeField16_toNat : (opcodeField16 iw).toNat = iw.toNat % 256 := by
  simp [opcodeField16]

theorem fields16_readAddr0_toNat : (fields16 iw).readAddr0.toNat = iw.toNat / 256 % 2 := Nat.toNat_testBit iw.toNat 8

theorem fields16_readAddr1_toNat : (fields16 iw).readAddr1.toNat = iw.toNat / 512 % 2 := Nat.toNat_testBit iw.toNat 9

theorem fields16_writeAddr_toNat : (fields16 iw).writeAddr.toNat = iw.toNat / 1024 % 2 := Nat.toNat_testBit iw.toNat 10

theorem fields16_argc : (fields16 iw).argc.val = iw.toNat / 2048 % 4 := toNat_extractLsb'_eq_div_mod iw 11 2

theorem fields16_argcLegal : (fields16 iw).ArgcLegal .cfg16 :=
  ⟨Nat.zero_le _, Nat.le_of_lt_succ (fields16 iw).argc.isLt⟩

/-- The reserved bits are no part of the sum (R54). -/
theorem toNat_mod_eq_sum_fields16 :
    iw.toNat % 8192 = (opcodeField16 iw).toNat + 256 * (fields16 iw).readAddr0.toNat
      + 512 * (fields16 iw).readAddr1.toNat + 1024 * (fields16 iw).writeAddr.toNat
      + 2048 * (fields16 iw).argc.val := by
  rw [opcodeField16_toNat, fields16_readAddr0_toNat, fields16_readAddr1_toNat, fields16_writeAddr_toNat, fields16_argc]
  omega

end

section
variable (iw : Word 8)

theorem opcodeField8_toNat : (opcodeField8 iw).toNat = iw.toNat % 16 := by
  simp [opcodeField8]

theorem fields8_readAddr0_toNat : (fields8 iw).readAddr0.toNat = iw.toNat / 16 % 2 := Nat.toNat_testBit iw.toNat 4

theorem fields8_readAddr1_toNat : (fields8 iw).readAddr1.toNat = iw.toNat / 32 % 2 := Nat.toNat_testBit iw.toNat 5

theorem fields8_writeAddr_toNat : (fields8 iw).writeAddr.toNat = iw.toNat / 64 % 2 := Nat.toNat_testBit iw.toNat 6

theorem fields8_argc : (fields8 iw).argc.val = iw.toNat / 128 + 1 := by
  have hbit : (iw.extractLsb' 7 1).toNat = iw.toNat / 128 % 2 := toNat_extractLsb'_eq_div_mod iw 7 1
  simp only [fields8, hbit]
  omega

theorem fields8_argcLegal : (fields8 iw).ArgcLegal .cfg8 :=
  ⟨Nat.le_add_left 1 _, Machine.fields8_argc_le iw⟩

theorem toNat_eq_sum_fields8 :
    iw.toNat = (opcodeField8 iw).toNat + 16 * (fields8 iw).readAddr0.toNat + 32 * (fields8 iw).readAddr1.toNat
      + 64 * (fields8 iw).writeAddr.toNat + 128 * ((fields8 iw).argc.val - 1) := by
  rw [opcodeField8_toNat, fields8_readAddr0_toNat, fields8_readAddr1_toNat, fields8_writeAddr_toNat, fields8_argc]
  omega

end

/-! ### The value of a packed word (R63) -/

/-- The reserved bits of a packed word are 0. -/
theorem pack16_lt (op : BitVec 8) (f : Fields) : (pack16 op f).toNat < 8192 := by
  refine Nat.lt_pow_two_of_testBit (n := 13) _ fun k hk => ?_
  rw [BitVec.testBit_toNat, pack16_getLsbD]
  simp (disch := omega) only [if_neg]

theorem pack16_toNat (op : BitVec 8) (f : Fields) :
    (pack16 op f).toNat = op.toNat + 256 * f.readAddr0.toNat + 512 * f.readAddr1.toNat
      + 1024 * f.writeAddr.toNat + 2048 * f.argc.val := by
  have hsum := toNat_mod_eq_sum_fields16 (pack16 op f)
  rwa [Nat.mod_eq_of_lt (pack16_lt op f), opcodeField16_pack16, fields16_pack16] at hsum

theorem pack8_toNat (op : BitVec 4) {f : Fields} (hf : f.ArgcLegal .cfg8) :
    (pack8 op f).toNat = op.toNat + 16 * f.readAddr0.toNat + 32 * f.readAddr1.toNat
      + 64 * f.writeAddr.toNat + 128 * (f.argc.val - 1) := by
  have hsum := toNat_eq_sum_fields8 (pack8 op f)
  rwa [opcodeField8_pack8, fields8_pack8 op f hf] at hsum

end Sys2Proof
end

section
/-! The opcode map (spec/30_encoding.md R60, R64): every opcode value belongs to one row, and the decoder's selection
is the inverse of `Instr.opcode`. -/

namespace Sys2Proof

/-! ### The tests of the selection, by arithmetic -/

section
variable {n : Nat} {op : BitVec n}

theorem ne_ofNat_of_toNat_ne {v : Nat} (h : op.toNat ≠ v % 2 ^ n) : ¬ op = BitVec.ofNat n v := by
  rintro rfl
  exact h (BitVec.toNat_ofNat v n)

theorem extractLsb'_eq_ofNat_iff {k m v : Nat} :
    op.extractLsb' k m = BitVec.ofNat m v ↔ op.toNat / 2 ^ k % 2 ^ m = v % 2 ^ m := by
  rw [← BitVec.toNat_inj, toNat_extractLsb'_eq_div_mod, BitVec.toNat_ofNat]

theorem extractLsb'_ne_ofNat {k m v : Nat} (h : op.toNat / 2 ^ k % 2 ^ m ≠ v % 2 ^ m) :
    ¬ op.extractLsb' k m = BitVec.ofNat m v :=
  mt extractLsb'_eq_ofNat_iff.mp h

/-- The free bits of an opcode whose fixed bits are those of `base`. -/
theorem extractLsb'_free_bits {m base : Nat} {x : BitVec m} (hop : op.toNat = base + x.toNat)
    (hbase : base % 2 ^ m = 0) : op.extractLsb' 0 m = x := by
  refine BitVec.eq_of_toNat_eq ?_
  rw [toNat_extractLsb'_eq_div_mod, hop, Nat.pow_zero, Nat.div_one, Nat.add_mod, hbase, Nat.zero_add, Nat.mod_mod,
    Nat.mod_eq_of_lt x.isLt]

theorem ofNat_eq_of_toNat_eq {v : Nat} (h : op.toNat = v) : BitVec.ofNat n v = op := by
  rw [← h, BitVec.ofNat_toNat, BitVec.setWidth_eq]

end

/-! ### The selection inverts the opcode -/

theorem select16_of_opcode {i : Instr} (h : i.cfg = .cfg16) {op : BitVec 8} (hop : op.toNat = i.opcode) :
    select16 op i.fields = i := by
  cases i with
  | none16 | copy16 | add16 | jumpIfZero16 | poke16 | halt16 =>
    obtain rfl := ofNat_eq_of_toNat_eq hop
    rfl
  | unassigned16At6 x f | unassigned16At8 x f | unassigned16At16 x f | unassigned16At32 x f | unassigned16At64 x f =>
    rw [Instr.opcode] at hop
    simp (disch := omega) only [select16, ne_ofNat_of_toNat_ne, extractLsb'_ne_ofNat, if_false,
      extractLsb'_free_bits hop]
    exact if_pos (extractLsb'_eq_ofNat_iff.mpr (by omega))
  | unassigned16At128 x f =>
    rw [Instr.opcode] at hop
    simp (disch := omega) only [select16, ne_ofNat_of_toNat_ne, extractLsb'_ne_ofNat, if_false,
      extractLsb'_free_bits hop, Instr.fields]
  | _ => cases h

theorem select8_of_opcode {i : Instr} (h : i.cfg = .cfg8) {op : BitVec 4} (hop : op.toNat = i.opcode) :
    select8 op i.fields = i := by
  cases i with
  | none8 | copy8 | add8 | jumpIfZero8 | poke8 | halt8 =>
    obtain rfl := ofNat_eq_of_toNat_eq hop
    rfl
  | unassigned8At6 x f =>
    rw [Instr.opcode] at hop
    simp (disch := omega) only [select8, ne_ofNat_of_toNat_ne, if_false, extractLsb'_free_bits hop]
    exact if_pos (extractLsb'_eq_ofNat_iff.mpr (by omega))
  | unassigned8At8 x f =>
    rw [Instr.opcode] at hop
    simp (disch := omega) only [select8, ne_ofNat_of_toNat_ne, extractLsb'_ne_ofNat, if_false,
      extractLsb'_free_bits hop, Instr.fields]
  | _ => cases h

/-! ### Every opcode value belongs to a row -/

theorem base_add_toNat_ofNat_sub {base m v : Nat} (hle : base ≤ v) (hlt : v < base + 2 ^ m) :
    base + (BitVec.ofNat m (v - base)).toNat = v := by
  rw [BitVec.toNat_ofNat, Nat.mod_eq_of_lt (by omega), Nat.add_sub_cancel' hle]

/-- The assigned opcodes and the blocks of unassigned ones cover all values of the field (R60). -/
theorem exists_instr16 (op : BitVec 8) (f : Fields) :
    ∃ i : Instr, i.cfg = .cfg16 ∧ i.fields = f ∧ i.opcode = op.toNat := by
  obtain h | h | h | h | h | h | h | h | h | h | h | h :
      op.toNat = 0 ∨ op.toNat = 1 ∨ op.toNat = 2 ∨ op.toNat = 3 ∨ op.toNat = 4 ∨ op.toNat = 5 ∨
      (6 ≤ op.toNat ∧ op.toNat < 8) ∨ (8 ≤ op.toNat ∧ op.toNat < 16) ∨ (16 ≤ op.toNat ∧ op.toNat < 32) ∨
      (32 ≤ op.toNat ∧ op.toNat < 64) ∨ (64 ≤ op.toNat ∧ op.toNat < 128) ∨ (128 ≤ op.toNat ∧ op.toNat < 256) := by
    omega
  · exact ⟨.none16 f, rfl, rfl, h.symm⟩
  · exact ⟨.copy16 f, rfl, rfl, h.symm⟩
  · exact ⟨.add16 f, rfl, rfl, h.symm⟩
  · exact ⟨.jumpIfZero16 f, rfl, rfl, h.symm⟩
  · exact ⟨.poke16 f, rfl, rfl, h.symm⟩
  · exact ⟨.halt16 f, rfl, rfl, h.symm⟩
  · exact ⟨.unassigned16At6 (BitVec.ofNat 1 (op.toNat - 6)) f, rfl, rfl, base_add_toNat_ofNat_sub h.1 h.2⟩
  · exact ⟨.unassigned16At8 (BitVec.ofNat 3 (op.toNat - 8)) f, rfl, rfl, base_add_toNat_ofNat_sub h.1 h.2⟩
  · exact ⟨.unassigned16At16 (BitVec.ofNat 4 (op.toNat - 16)) f, rfl, rfl, base_add_toNat_ofNat_sub h.1 h.2⟩
  · exact ⟨.unassigned16At32 (BitVec.ofNat 5 (op.toNat - 32)) f, rfl, rfl, base_add_toNat_ofNat_sub h.1 h.2⟩
  · exact ⟨.unassigned16At64 (BitVec.ofNat 6 (op.toNat - 64)) f, rfl, rfl, base_add_toNat_ofNat_sub h.1 h.2⟩
  · exact ⟨.unassigned16At128 (BitVec.ofNat 7 (op.toNat - 128)) f, rfl, rfl, base_add_toNat_ofNat_sub h.1 h.2⟩

theorem exists_instr8 (op : BitVec 4) (f : Fields) :
    ∃ i : Instr, i.cfg = .cfg8 ∧ i.fields = f ∧ i.opcode = op.toNat := by
  obtain h | h | h | h | h | h | h | h :
      op.toNat = 0 ∨ op.toNat = 1 ∨ op.toNat = 2 ∨ op.toNat = 3 ∨ op.toNat = 4 ∨ op.toNat = 5 ∨
      (6 ≤ op.toNat ∧ op.toNat < 8) ∨ (8 ≤ op.toNat ∧ op.toNat < 16) := by
    omega
  · exact ⟨.none8 f, rfl, rfl, h.symm⟩
  · exact ⟨.copy8 f, rfl, rfl, h.symm⟩
  · exact ⟨.add8 f, rfl, rfl, h.symm⟩
  · exact ⟨.jumpIfZero8 f, rfl, rfl, h.symm⟩
  · exact ⟨.poke8 f, rfl, rfl, h.symm⟩
  · exact ⟨.halt8 f, rfl, rfl, h.symm⟩
  · exact ⟨.unassigned8At6 (BitVec.ofNat 1 (op.toNat - 6)) f, rfl, rfl, base_add_toNat_ofNat_sub h.1 h.2⟩
  · exact ⟨.unassigned8At8 (BitVec.ofNat 3 (op.toNat - 8)) f, rfl, rfl, base_add_toNat_ofNat_sub h.1 h.2⟩

theorem select16_opcode (op : BitVec 8) (f : Fields) : (select16 op f).opcode = op.toNat := by
  obtain ⟨i, hcfg, rfl, hop⟩ := exists_instr16 op f
  rw [select16_of_opcode hcfg hop.symm, hop]

theorem select8_opcode (op : BitVec 4) (f : Fields) : (select8 op f).opcode = op.toNat := by
  obtain ⟨i, hcfg, rfl, hop⟩ := exists_instr8 op f
  rw [select8_of_opcode hcfg hop.symm, hop]

theorem decode16_opcode (iw : Word 16) : (decode16 iw).opcode = iw.toNat % 256 :=
  (select16_opcode _ _).trans (opcodeField16_toNat iw)

theorem decode8_opcode (iw : Word 8) : (decode8 iw).opcode = iw.toNat % 16 :=
  (select8_opcode _ _).trans (opcodeField8_toNat iw)

/-! ### Decoding is total on its configuration (R53, R55) -/

theorem decode16_wellFormed (iw : Word 16) : (decode16 iw).WellFormed .cfg16 :=
  ⟨decode16_cfg iw, (decode16_fields iw).symm ▸ fields16_argcLegal iw⟩

theorem decode8_wellFormed (iw : Word 8) : (decode8 iw).WellFormed .cfg8 :=
  ⟨decode8_cfg iw, (decode8_fields iw).symm ▸ fields8_argcLegal iw⟩

/-- Settles O5, field by field. -/
theorem decodeTakesFieldsFromTheirBits : Obligations.DecodeTakesFieldsFromTheirBits := by
  refine ⟨fun iw => ⟨decode16_wellFormed iw, decode16_opcode iw, ?_⟩,
    fun iw => ⟨decode8_wellFormed iw, decode8_opcode iw, ?_⟩⟩
  · rw [decode16_fields]
    exact ⟨fields16_readAddr0_toNat iw, fields16_readAddr1_toNat iw, fields16_writeAddr_toNat iw, fields16_argc iw⟩
  · rw [decode8_fields]
    exact ⟨fields8_readAddr0_toNat iw, fields8_readAddr1_toNat iw, fields8_writeAddr_toNat iw, fields8_argc iw⟩

end Sys2Proof
end

section
/-! `Encode` against `Decode` (spec/30_encoding.md R54, R63). -/

namespace Sys2Proof

open Sys2Proof.Machine

/-! ### The opcode fits its field -/

theorem opcode_lt_of_cfg16 {i : Instr} (h : i.cfg = .cfg16) : i.opcode < 256 := by
  cases i with
  | none8 | copy8 | add8 | jumpIfZero8 | poke8 | halt8 | unassigned8At6 | unassigned8At8 => cases h
  | _ =>
    rw [Instr.opcode]
    omega

theorem opcode_lt_of_cfg8 {i : Instr} (h : i.cfg = .cfg8) : i.opcode < 16 := by
  cases i with
  | none16 | copy16 | add16 | jumpIfZero16 | poke16 | halt16 | unassigned16At6 | unassigned16At8 | unassigned16At16
  | unassigned16At32 | unassigned16At64 | unassigned16At128 => cases h
  | _ =>
    rw [Instr.opcode]
    omega

theorem toNat_ofNat_opcode16 {i : Instr} (h : i.cfg = .cfg16) : (BitVec.ofNat 8 i.opcode).toNat = i.opcode := by
  rw [BitVec.toNat_ofNat, Nat.mod_eq_of_lt (opcode_lt_of_cfg16 h)]

theorem toNat_ofNat_opcode8 {i : Instr} (h : i.cfg = .cfg8) : (BitVec.ofNat 4 i.opcode).toNat = i.opcode := by
  rw [BitVec.toNat_ofNat, Nat.mod_eq_of_lt (opcode_lt_of_cfg8 h)]

/-! ### Decoding an encoding -/

theorem decode16_encode16 {i : Instr} (h : i.cfg = .cfg16) : decode16 (encode16 i) = i := by
  rw [decode16, encode16, opcodeField16_pack16, fields16_pack16, select16_of_opcode h (toNat_ofNat_opcode16 h)]

theorem decode8_encode8 {i : Instr} (h : i.WellFormed .cfg8) : decode8 (encode8 i) = i := by
  rw [decode8, encode8, opcodeField8_pack8, fields8_pack8 _ _ h.2, select8_of_opcode h.1 (toNat_ofNat_opcode8 h.1)]

/-! ### Encoding a decoding -/

theorem encode16_decode16_toNat (iw : Word 16) : (encode16 (decode16 iw)).toNat = iw.toNat % 8192 := by
  rw [encode16, pack16_toNat, toNat_ofNat_opcode16 (decode16_cfg iw), decode16_opcode, decode16_fields,
    ← opcodeField16_toNat, toNat_mod_eq_sum_fields16]

theorem encode8_decode8 (iw : Word 8) : encode8 (decode8 iw) = iw := by
  have hlegal := (decode8_wellFormed iw).2
  refine BitVec.eq_of_toNat_eq ?_
  rw [encode8, pack8_toNat _ hlegal, toNat_ofNat_opcode8 (decode8_cfg iw), decode8_opcode, decode8_fields,
    ← opcodeField8_toNat, ← toNat_eq_sum_fields8]

/-- Settles O2: `Encode` packs the opcode and the fields, `Decode` takes them back and selects by the opcode. -/
theorem decodeInvertsEncode : Obligations.DecodeInvertsEncode := by
  refine ⟨fun i h => ⟨decode16_encode16 h.1, ?_⟩, fun i h => ⟨decode8_encode8 h, ?_⟩, encode16_decode16_toNat,
    encode8_decode8⟩
  · rw [encode16, pack16_toNat, toNat_ofNat_opcode16 h.1]
  · rw [encode8, pack8_toNat _ h.2, toNat_ofNat_opcode8 h.1]

/-! ### The reserved bits -/

/-- A decoding says no more than the word's encoding, which the low 13 bits determine. -/
theorem decode16_eq_of_mod_eq {iw iw' : Word 16} (h : iw.toNat % 8192 = iw'.toNat % 8192) :
    decode16 iw = decode16 iw' := by
  have hencode : encode16 (decode16 iw) = encode16 (decode16 iw') := by
    refine BitVec.eq_of_toNat_eq ?_
    rw [encode16_decode16_toNat, encode16_decode16_toNat, h]
  calc decode16 iw = decode16 (encode16 (decode16 iw)) := (decode16_encode16 (decode16_cfg iw)).symm
    _ = decode16 (encode16 (decode16 iw')) := by rw [hencode]
    _ = decode16 iw' := decode16_encode16 (decode16_cfg iw')

/-- Settles O4: two words that agree below bit 13 are equal mod 8192. -/
theorem reservedBitsAreIgnored : Obligations.ReservedBitsAreIgnored := by
  intro iw iw' hbits
  have hmod : iw.toNat % 8192 = iw'.toNat % 8192 := by
    refine Nat.eq_of_testBit_eq fun k => ?_
    rw [Nat.testBit_mod_two_pow _ 13, Nat.testBit_mod_two_pow _ 13, BitVec.testBit_toNat, BitVec.testBit_toNat]
    by_cases hk : k < 13
    · rw [hbits k hk]
    · simp [hk]
  have hdecode := decode16_eq_of_mod_eq hmod
  exact ⟨hdecode, fun s => by rw [hdecode]⟩

/-! ### Lengths (R55, R56) -/

theorem length_of_ne_halt8 {i : Instr} (h : ∀ f, i ≠ .halt8 f) : i.length = 1 + i.fields.operandWords := by
  cases i with
  | halt8 f => exact absurd rfl (h f)
  | _ => rfl

/-- Settles O6: all but the `HALT` of `CFG8` have one length formula, and the ranges are those of the operand words. -/
theorem lengthIsReadFromOpcodeWord : Obligations.LengthIsReadFromOpcodeWord := by
  refine ⟨fun iw => ?cfg16, fun iw hop => ?halt8, fun iw hop => ?cfg8⟩
  case cfg16 =>
    have hlength := length_of_ne_halt8 (decode16_ne_halt8 iw)
    rw [decode16_fields] at hlength
    have hle := Laws.LengthRange.operandWords_le (fields16 iw)
    rw [hlength]
    exact ⟨(Nat.add_assoc ..).symm, by omega, by omega⟩
  case halt8 =>
    obtain ⟨f, hi⟩ := exists_decode8_eq_halt8_iff.mpr hop
    rw [hi, Instr.length]
  case cfg8 =>
    have hlength := length_of_ne_halt8 (not_exists.mp (mt exists_decode8_eq_halt8_iff.mp hop))
    rw [decode8_fields] at hlength
    obtain ⟨hge, hle⟩ := Laws.LengthRange.operandWords_cfg8 (fields8_argcLegal iw)
    rw [hlength]
    exact ⟨(Nat.add_assoc ..).symm, by omega, by omega⟩

end Sys2Proof
end

section
/-! The opcode table (spec/30_encoding.md R62, R64): an instruction's opcode meets its row, and the table is
unambiguous, so the row of the decoded instruction is the only one a word meets. -/

namespace Sys2Proof

theorem row_config (i : Instr) : i.row.config = i.cfg := by cases i <;> rfl

theorem row_mem_opcodeTable (i : Instr) : i.row ∈ opcodeTable := by cases i <;> simp [Instr.row, opcodeTable]

theorem opcodeTable_nodup : opcodeTable.Nodup := by decide

/-- Rows of one configuration differ in a bit that both masks test. -/
theorem opcodeTable_unambiguous : ∀ r ∈ opcodeTable, ∀ s ∈ opcodeTable, r.config = s.config →
    r.value &&& s.mask = s.value &&& r.mask → r = s := by decide

theorem row_unique {r s : Row} (hr : r ∈ opcodeTable) (hs : s ∈ opcodeTable) (hconfig : r.config = s.config) {w : Nat}
    (hwr : w &&& r.mask = r.value) (hws : w &&& s.mask = s.value) : r = s :=
  opcodeTable_unambiguous r hr s hs hconfig (by rw [← hwr, ← hws, Nat.land_assoc, Nat.land_assoc, Nat.land_comm r.mask])

/-- A word that meets the row of an instruction meets no other row of that configuration. -/
theorem rowsMatching_eq_row {i : Instr} {w : Nat} (hw : w &&& i.row.mask = i.row.value) :
    rowsMatching i.cfg w = [i.row] := by
  have honly : ∀ r ∈ opcodeTable,
      decide (r.config = i.cfg ∧ w &&& r.mask = r.value) = decide (r = i.row) := by
    intro r hr
    refine decide_eq_decide.mpr ⟨fun ⟨hconfig, hwr⟩ => ?_, ?_⟩
    · exact row_unique hr (row_mem_opcodeTable i) (hconfig.trans (row_config i).symm) hwr hw
    · rintro rfl
      exact ⟨row_config i, hw⟩
  rw [rowsMatching, List.filter_congr honly, List.filter_eq,
    List.count_eq_one_of_mem opcodeTable_nodup (row_mem_opcodeTable i), List.replicate_one]

/-! ### An opcode meets its row -/

/-- A mask that tests only bits from `k` up clears the free bits below. -/
theorem two_pow_mul_add_and {k x : Nat} (hx : x < 2 ^ k) (c d : Nat) :
    (2 ^ k * c + x) &&& (2 ^ k * d) = 2 ^ k * (c &&& d) := by
  refine Nat.eq_of_testBit_eq fun j => ?_
  rw [Nat.testBit_and, Nat.testBit_two_pow_mul_add _ hx, Nat.testBit_two_pow_mul, Nat.testBit_two_pow_mul]
  by_cases hj : j < k
  · simp [hj, Nat.not_le.mpr hj]
  · simp [hj, Nat.not_lt.mp hj]

theorem opcode_and_mask (i : Instr) : i.opcode &&& i.row.mask = i.row.value := by
  cases i with
  | unassigned16At6 x f => exact two_pow_mul_add_and x.isLt 3 127
  | unassigned16At8 x f => exact two_pow_mul_add_and x.isLt 1 31
  | unassigned16At16 x f => exact two_pow_mul_add_and x.isLt 1 15
  | unassigned16At32 x f => exact two_pow_mul_add_and x.isLt 1 7
  | unassigned16At64 x f => exact two_pow_mul_add_and x.isLt 1 3
  | unassigned16At128 x f => exact two_pow_mul_add_and x.isLt 1 1
  | unassigned8At6 x f => exact two_pow_mul_add_and x.isLt 3 7
  | unassigned8At8 x f => exact two_pow_mul_add_and x.isLt 1 1
  | _ => simp [Instr.opcode, Instr.row]

/-- The masks of a configuration test bits of its opcode field alone. -/
theorem row_mask_of_cfg16 {i : Instr} (h : i.cfg = .cfg16) : 255 &&& i.row.mask = i.row.mask := by
  cases i with
  | none8 | copy8 | add8 | jumpIfZero8 | poke8 | halt8 | unassigned8At6 | unassigned8At8 => cases h
  | _ => simp [Instr.row]

theorem row_mask_of_cfg8 {i : Instr} (h : i.cfg = .cfg8) : 15 &&& i.row.mask = i.row.mask := by
  cases i with
  | none16 | copy16 | add16 | jumpIfZero16 | poke16 | halt16 | unassigned16At6 | unassigned16At8 | unassigned16At16
  | unassigned16At32 | unassigned16At64 | unassigned16At128 => cases h
  | _ => simp [Instr.row]

/-- If the low `n` bits of a word are the opcode of an instruction, and its row tests those alone, the word meets it. -/
theorem and_row_mask {i : Instr} {w n : Nat} (hop : i.opcode = w % 2 ^ n)
    (hmask : (2 ^ n - 1) &&& i.row.mask = i.row.mask) : w &&& i.row.mask = i.row.value :=
  calc w &&& i.row.mask = w &&& (2 ^ n - 1) &&& i.row.mask := by rw [Nat.land_assoc, hmask]
    _ = i.opcode &&& i.row.mask := by rw [Nat.and_two_pow_sub_one_eq_mod, hop]
    _ = i.row.value := opcode_and_mask i

/-- Settles O3: the word meets the row of the instruction it decodes to, and so no other. -/
theorem everyWordSelectsOneRow : Obligations.EveryWordSelectsOneRow := by
  refine ⟨fun iw => ?cfg16, fun iw => ?cfg8⟩
  case cfg16 =>
    have hcfg := decode16_cfg iw
    rw [← rowsMatching_eq_row (and_row_mask (n := 8) (decode16_opcode iw) (row_mask_of_cfg16 hcfg)), hcfg]
  case cfg8 =>
    have hcfg := decode8_cfg iw
    rw [← rowsMatching_eq_row (and_row_mask (n := 4) (decode8_opcode iw) (row_mask_of_cfg8 hcfg)), hcfg]

end Sys2Proof
end

section
/-! What follows from the encoding for the step: every word has a meaning (spec/30_encoding.md R61, R62), and `JUMP #t`
jumps from anywhere to anywhere (R66). -/

namespace Sys2Proof.Machine

variable {w : Nat}

theorem runOutcome_ne_refused (wrap : Mach w → State) (r : Run w (Mach w)) (reason : Refusal) :
    runOutcome wrap r ≠ .refused reason := by
  cases r <;> simp [runOutcome, overrunOutcome]

/-! ### The unconditional jump -/

/-- The fields of `JUMP_IF_ZERO #t, #0`: two immediate operands, and no result stored (R66). -/
def jumpFields : Fields := ⟨false, false, false, 2⟩

/-- With 0 as its second operand word the instruction changes `pc` to its first, not memory or output (R100). -/
theorem Mach.completed_of_jump {m : Mach w} {i : Instr} (hact : instrAct (w := w) i = Mach.actJumpIfZero)
    (hfields : i.fields = jumpFields) (hzero : m.streamWord 1 = 0#w) :
    (m.completed i).pc = m.streamWord 0 ∧ (m.completed i).mem = m.mem ∧ (m.completed i).outStream = m.outStream := by
  have h0 : m.operand0 jumpFields = m.streamWord 0 := rfl
  have h1 : m.operand1 jumpFields = m.streamWord 1 := rfl
  refine ⟨?_, ?_, ?_⟩
  · simp [hact, hfields, Mach.actJumpIfZero, h0, h1, hzero, isZero]
  · simp [Mach.completed, hfields, jumpFields, Mach.writeBack]
  · simp [hact, hfields, Mach.actJumpIfZero]

theorem Mach.fetchedOpcode_streamWord (m : Mach w) (k : Nat) :
    m.fetchedOpcode.streamWord k = m.wordAt (m.pc + BitVec.ofNat w (k + 1)) := by
  rw [Nat.add_comm k, BitVec.ofNat_add, ← BitVec.add_assoc]
  rfl

/-- The machine of either configuration: `hstep` is the law of its step, and `i` its `JUMP_IF_ZERO #t, #0`. -/
theorem step_of_jump {wrap : Mach w → State} {decode : Word w → Instr}
    (hstep : ∀ m, step (wrap m) = runOutcome wrap (m.runStep decode)) {i : Instr}
    (hact : instrAct (w := w) i = Mach.actJumpIfZero) (hne : ∀ f, i ≠ .halt8 f) (hfields : i.fields = jumpFields)
    {m : Mach w} {target : Word w} (hrun : m.status = .running) (hpc : m.pc.toNat + 3 < memSize w)
    (hi : decode (m.wordAt m.pc) = i) (htarget : m.wordAt (m.pc + 1#w) = target)
    (hzero : m.wordAt (m.pc + 2#w) = 0#w) :
    ∃ t, step (wrap m) = .next (wrap t) ∧ t.pc = target ∧ t.mem = m.mem ∧ t.outStream = m.outStream := by
  have hfits : m.fetchedOpcode.Fits i.fields := by
    have hpc1 : (m.pc + 1#w).toNat = m.pc.toNat + 1 := Mach.toNat_add_ofNat (by omega)
    rw [Mach.Fits, hfields, Mach.fetchedOpcode_pc, hpc1]
    exact hpc
  have hok : m.runStep decode = .ok (m.fetchedOpcode.completed i) := by
    rw [Mach.runStep_fits decode hrun (by omega), hi, Mach.runInstr_of_ne_halt8 hne, Mach.general_fits hfits,
      Mach.completed]
  obtain ⟨hpc', hmem, hout⟩ := Mach.completed_of_jump hact hfields ((m.fetchedOpcode_streamWord 1).trans hzero)
  exact ⟨m.fetchedOpcode.completed i, by rw [hstep, hok, runOutcome],
    hpc'.trans ((m.fetchedOpcode_streamWord 0).trans htarget), hmem, hout⟩

end Sys2Proof.Machine

namespace Sys2Proof

open Sys2Proof.Machine

/-- Settles O15: a step answers the outcome of a run, which completes or overruns. -/
theorem stepNeverRefuses : Obligations.StepNeverRefuses := by
  intro s reason
  obtain ⟨w, wrap, r, hr, -⟩ := step_eq_runOutcome s
  rw [hr]
  exact runOutcome_ne_refused wrap r reason

theorem decode16_jump : decode16 0x1003#16 = .jumpIfZero16 jumpFields := by decide

theorem decode8_jump : decode8 0x83#8 = .jumpIfZero8 jumpFields := by decide

/-- Settles O36: the word decodes to the jump, whose operand words are the two after it. -/
theorem unconditionalJumpGoesToTarget : Obligations.UnconditionalJumpGoesToTarget :=
  ⟨fun _ _ hrun hpc hword => step_of_jump step_of16 rfl (ne_halt8_of_cfg16 rfl) rfl hrun hpc (hword ▸ decode16_jump),
    fun _ _ hrun hpc hword => step_of_jump step_of8 rfl (by simp) rfl hrun hpc (hword ▸ decode8_jump)⟩

end Sys2Proof
end

section
/-! A fetch at the last address (spec/40_step_datapath.md R73; spec/60_exceptions.md R112, R113, R117): the machine has
only read since the step began, the last time at that address, so the overrun leaves the record and those reads. -/

namespace Sys2Proof.Machine

open Sys2Proof.Claims

variable {w : Nat}

/-! ### What an overrun leaves -/

/-- `MEMSIZE` fits the address field of the record (R110). -/
theorem toNat_ofNat_memSize (w : Nat) : (BitVec.ofNat (w + 1) (memSize w)).toNat = memSize w := by
  rw [BitVec.toNat_ofNat, Nat.mod_eq_of_lt (Nat.pow_lt_pow_right Nat.one_lt_two w.lt_succ_self)]

@[simp] theorem Mach.raiseOverrun_status (m : Mach w) (kind : OverrunKind) (addr : BitVec (w + 1)) :
    (m.raiseOverrun kind addr).2.status = .faulted := rfl

/-- The overrun of a machine `n` that differs from `m` by reads, the last of them at the last address, and by what a
fault leaves open. -/
theorem faultLeaves_raiseOverrun {m n : Mach w} {es : List (Event w)} {a v : Word w} (hmem : n.mem = m.mem)
    (hout : n.outStream = m.outStream) (hhalted : n.halted = m.halted)
    (hevents : n.events = m.events ++ es ++ [.read a v]) (hwrites : writeCount es = 0) (hemits : emitted es = [])
    (hlast : a.toNat + 1 = memSize w) :
    FaultLeaves m (n.raiseOverrun .pcAdvance (BitVec.ofNat (w + 1) (memSize w))).2 .pcAdvance (memSize w) where
  record := ⟨_, rfl, rfl, toNat_ofNat_memSize w⟩
  status := n.raiseOverrun_status _ _
  memory := hmem
  outStream := hout
  halted := hhalted
  events := ⟨es, a, v, hevents, hwrites, hemits, hlast⟩

/-- How an overrun at `MEMSIZE` stands in the outcome of a step. -/
theorem overrunOutcome_raiseOverrun (wrap : Mach w → State) (m : Mach w) :
    overrunOutcome wrap (m.raiseOverrun .pcAdvance (BitVec.ofNat (w + 1) (memSize w))) =
      .fault (.addressOverrun .pcAdvance (memSize w)
        (wrap (m.raiseOverrun .pcAdvance (BitVec.ofNat (w + 1) (memSize w))).2)) := by
  rw [overrunOutcome, Mach.raiseOverrun_record, toNat_ofNat_memSize]

/-! ### The opcode word -/

/-- A Running machine whose opcode word lies at the last address, in either configuration. -/
theorem Mach.request_at_last_address (wrap : Mach w → State) (decode : Word w → Instr) {m : Mach w}
    (hrun : m.status = .running) (hpc : m.pc.toNat + 1 = memSize w) :
    ∃ t, m.request wrap decode = .fault (.addressOverrun .pcAdvance (memSize w) (wrap t)) ∧
      FaultLeaves m t .pcAdvance (memSize w) ∧ t.events = m.events ++ [.read m.pc (m.wordAt m.pc)] := by
  refine ⟨_, (Mach.request_overrun wrap decode hrun hpc.not_lt).trans (overrunOutcome_raiseOverrun wrap _), ?_, rfl⟩
  exact faultLeaves_raiseOverrun (es := []) (v := m.wordAt m.pc) rfl rfl rfl (by simp) rfl rfl hpc

/-! ### An operand word -/

/-- The reads up to the last address end with the read of the word there. -/
theorem Mach.streamReads_to_last_address (m : Mach w) :
    ∃ n, m.streamReads (memSize w - m.pc.toNat) =
        m.streamReads n ++ [.read (m.pc + BitVec.ofNat w n) (m.streamWord n)] ∧
      (m.pc + BitVec.ofNat w n).toNat + 1 = memSize w := by
  have hpc : m.pc.toNat < memSize w := m.pc.isLt
  obtain ⟨n, hn⟩ : ∃ n, memSize w - m.pc.toNat = n + 1 := Nat.exists_eq_add_one.mpr (Nat.sub_pos_of_lt hpc)
  refine ⟨n, by rw [hn, Mach.streamReads], ?_⟩
  rw [Mach.toNat_add_ofNat (by omega)]
  omega

theorem Mach.overrun_faultLeaves (m : Mach w) : FaultLeaves m m.overrun.2 .pcAdvance (memSize w) := by
  obtain ⟨n, hreads, hlast⟩ := m.streamReads_to_last_address
  rw [Mach.overrun, hreads, ← List.append_assoc]
  exact faultLeaves_raiseOverrun rfl rfl rfl rfl (writeCount_streamReads m n) (emitted_streamReads m n) hlast

/-- An instruction of the common datapath whose operand words do not fit, in either configuration. -/
theorem exec_of_not_fits {wrap : Mach w → State} {i : Instr} {m : Mach w}
    (hexec : exec i (wrap m) = runOutcome wrap (m.general i.fields (instrAct i))) (hfits : ¬ m.Fits i.fields) :
    ∃ t, exec i (wrap m) = .fault (.addressOverrun .pcAdvance (memSize w) (wrap t)) ∧
      FaultLeaves m t .pcAdvance (memSize w) ∧ t.events = m.events ++ m.streamReads (memSize w - m.pc.toNat) := by
  refine ⟨m.overrun.2, ?_, m.overrun_faultLeaves, rfl⟩
  rw [hexec, Mach.general_not_fits hfits]
  exact overrunOutcome_raiseOverrun wrap _

theorem ne_halt8_of_opcode_ne_five {i : Instr} (h : i.opcode ≠ 5) (f : Fields) : i ≠ .halt8 f := by
  rintro rfl
  exact h rfl

end Sys2Proof.Machine

namespace Sys2Proof

open Sys2Proof.Machine

/-- Settles O13: the read of the opcode word comes first, and the advance past it is the overrun. -/
theorem opcodeFetchAtLastAddressFaults : Obligations.OpcodeFetchAtLastAddressFaults :=
  ⟨fun _ hrun hpc => Mach.request_at_last_address .of16 decode16 hrun hpc,
    fun _ hrun hpc => Mach.request_at_last_address .of8 decode8 hrun hpc⟩

/-- Settles O14: each such instruction is the common datapath, which overruns before the opcode's action. -/
theorem operandFetchAtLastAddressFaults : Obligations.OperandFetchAtLastAddressFaults :=
  ⟨fun _ m hcfg hfits => exec_of_not_fits (exec_of16 hcfg m) hfits,
    fun _ m hcfg hop hfits => exec_of_not_fits (exec_of8 hcfg (ne_halt8_of_opcode_ne_five hop) m) hfits⟩

end Sys2Proof
end

section
/-! What a step leaves (spec/40_step_datapath.md R71, R72, R87): the action of an instruction by its opcode, and from it
the result of a completed step. -/

namespace Sys2Proof.Machine

open Sys2Proof.Claims

variable {w : Nat}

/-! ### The action by the opcode -/

theorem isZero_iff {v : Word w} : isZero v = true ↔ v.toNat = 0 := by
  rw [isZero, beq_iff_eq, ← BitVec.toNat_inj, BitVec.toNat_zero]

/-- Opcode 3 alone sets `pc`, to `in[0]` where `in[1]` is zero (R100). -/
theorem instrAct_pc (i : Instr) (m : Mach w) :
    (instrAct i m).pc = if i.opcode = 3 ∧ m.in1.toNat = 0 then m.in0 else m.pc := by
  obtain ⟨hop, hact⟩ | ⟨hop, hact⟩ | ⟨hop, hact⟩ | ⟨hop, hact⟩ | ⟨hop, hact⟩ | ⟨hop, hact⟩ :=
    instrAct_cases (w := w) i <;> rw [hact]
  case inr.inr.inl => simp [Mach.actJumpIfZero, hop, isZero_iff]
  all_goals
    rw [if_neg (by omega)]
    rfl

/-- Opcode 4 alone emits (R101). -/
theorem instrAct_outStream (i : Instr) (m : Mach w) :
    (instrAct i m).outStream = if i.opcode = 4 then m.outStream ++ [lowByte m.in1] else m.outStream := by
  obtain ⟨hop, hact⟩ | ⟨hop, hact⟩ | ⟨hop, hact⟩ | ⟨hop, hact⟩ | ⟨hop, hact⟩ | ⟨hop, hact⟩ :=
    instrAct_cases (w := w) i <;> rw [hact]
  case inr.inr.inr.inl =>
    rw [if_pos hop]
    rfl
  all_goals
    rw [if_neg (by omega)]
    rfl

/-- Opcode 5 alone sets `halted` (R102, R103). -/
theorem instrAct_halted (i : Instr) (m : Mach w) :
    (instrAct i m).halted = if i.opcode = 5 then true else m.halted := by
  obtain ⟨hop, hact⟩ | ⟨hop, hact⟩ | ⟨hop, hact⟩ | ⟨hop, hact⟩ | ⟨hop, hact⟩ | ⟨hop, hact⟩ :=
    instrAct_cases (w := w) i <;> rw [hact]
  case inr.inr.inr.inr.inl =>
    rw [if_pos hop]
    rfl
  all_goals
    rw [if_neg (by omega)]
    rfl

/-! ### A completed step -/

theorem Mach.runInstr_eq_ok {m t : Mach w} {i : Instr} (h : m.runInstr i = .ok t) :
    (∃ f, i = .halt8 f ∧ t = m.setHalted) ∨
    ((∀ f, i ≠ .halt8 f) ∧ m.Fits i.fields ∧ t = m.completed i) := by
  obtain ⟨f, hi, hr⟩ | ⟨hne, hfits, hr⟩ | ⟨-, -, hr⟩ := m.runInstr_cases i <;> rw [hr] at h <;> cases h
  · exact .inl ⟨f, hi, rfl⟩
  · exact .inr ⟨hne, hfits, rfl⟩

theorem Mach.runStep_of_fetchOpcode {m m1 : Mach w} {iw : Word w} (decode : Word w → Instr)
    (hrun : m.status = .running) (hfetch : m.fetchOpcode = .ok (iw, m1)) :
    m.runStep decode = m1.runInstr (decode iw) := by
  simp only [Mach.runStep, if_pos hrun, hfetch]

/-- The opcode fetch does not wrap `pc` (R73). -/
theorem Mach.fetchOpcode_pc_toNat {m m1 : Mach w} {iw : Word w} (h : m.fetchOpcode = .ok (iw, m1)) :
    m1.pc.toNat = m.pc.toNat + 1 := by
  by_cases hpc : m.pc.toNat + 1 < memSize w
  · rw [(Mach.fetchOpcode_eq_ok h).2]
    exact Mach.toNat_add_ofNat hpc
  · rw [Mach.fetchOpcode_overrun hpc] at h
    cases h

/-- The early return of the `HALT` of `CFG8` (R74): a word of one, which sets `halted` alone. -/
theorem stepLeaves_halt8 {m m1 : Mach w} {iw : Word w} (hfetch : m.fetchOpcode = .ok (iw, m1)) (f : Fields) :
    StepLeaves (.halt8 f) m m1 m1.setHalted := by
  have hpc := Mach.fetchOpcode_pc_toNat hfetch
  obtain ⟨-, rfl⟩ := Mach.fetchOpcode_eq_ok hfetch
  exact {
    sequential := fun _ => hpc
    jumped := fun hop => nomatch hop
    memory := fun _ _ => rfl
    poked := fun hop => nomatch hop
    notPoked := fun _ => rfl
    halted := rfl }

/-- An instruction of the common datapath that fits (R70). -/
theorem stepLeaves_completed {m m1 : Mach w} {iw : Word w} {i : Instr} (hm : m.mem.wf) (hrun : m.status = .running)
    (hfetch : m.fetchOpcode = .ok (iw, m1)) (hne : ∀ f, i ≠ .halt8 f) (hfits : m1.Fits i.fields) :
    StepLeaves i m m1 (m1.completed i) := by
  have hpc := Mach.fetchOpcode_pc_toNat hfetch
  have hhalted := (Mach.status_running_iff.mp hrun).1
  obtain ⟨-, rfl⟩ := Mach.fetchOpcode_eq_ok hfetch
  refine ⟨fun hseq => ?sequential, fun hop hzero => ?jumped, fun a ha => ?memory, fun hop => ?poked,
    fun hop => ?notPoked, ?halted⟩
  case sequential =>
    have hnot : ¬ (i.opcode = 3 ∧ (m.fetchedOpcode.operand1 i.fields).toNat = 0) := by tauto
    rw [Mach.completed_pc, instrAct_pc, Mach.ready_in1, if_neg hnot, Mach.ready_pc, Mach.pcPast,
      Mach.toNat_add_ofNat hfits, hpc, length_of_ne_halt8 hne, Nat.add_assoc]
  case jumped => rw [Mach.completed_pc, instrAct_pc, Mach.ready_in1, if_pos ⟨hop, hzero⟩, Mach.ready_in0]
  case memory => exact Mach.completed_wordAt (m := m.fetchedOpcode) hm ha
  case poked =>
    rw [Mach.completed_outStream, instrAct_outStream, if_pos hop]
    exact ⟨_, rfl⟩
  case notPoked =>
    rw [Mach.completed_outStream, instrAct_outStream, if_neg hop]
    rfl
  case halted =>
    rw [Mach.completed_halted, instrAct_halted, Mach.ready_halted, Mach.fetchedOpcode_halted, hhalted]
    by_cases hop : i.opcode = 5 <;> simp [hop]

/-- The machine of either configuration: `hstep` is the law of its step. -/
theorem stepLeaves_of_step {wrap : Mach w → State} (hwrap : Function.Injective wrap) {decode : Word w → Instr}
    (hstep : ∀ m, step (wrap m) = runOutcome wrap (m.runStep decode)) (m m1 t : Mach w) (iw : Word w)
    (hm : m.mem.wf) (hrun : m.status = .running) (hfetch : m.fetchOpcode = .ok (iw, m1))
    (h : step (wrap m) = .next (wrap t)) : StepLeaves (decode iw) m m1 t := by
  have hok : m1.runInstr (decode iw) = .ok t :=
    (Mach.runStep_of_fetchOpcode decode hrun hfetch).symm.trans (runStep_eq_ok_of_step hwrap hstep h)
  obtain ⟨f, hi, rfl⟩ | ⟨hne, hfits, rfl⟩ := Mach.runInstr_eq_ok hok
  · rw [hi]
    exact stepLeaves_halt8 hfetch f
  · exact stepLeaves_completed hm hrun hfetch hne hfits

end Sys2Proof.Machine

namespace Sys2Proof

open Sys2Proof.Machine

/-- Settles O19: a completed step is the early return or the common datapath, and what each leaves is known. -/
theorem stepLeavesPcMemoryOutputHalted : Obligations.StepLeavesPcMemoryOutputHalted :=
  ⟨stepLeaves_of_step of16_injective step_of16, stepLeaves_of_step of8_injective step_of8⟩

/-- Settles O10: the machine after action 1 is `Mach.fetchedOpcode`, written out field by field in the statement. -/
theorem stepRunsDecodedInstruction : Obligations.StepRunsDecodedInstruction :=
  ⟨fun _ hrun hpc => Mach.request_running .of16 decode16 hrun hpc,
    fun _ hrun hpc => Mach.request_running .of8 decode8 hrun hpc⟩

/-- Settles O11: neither state is Running. -/
theorem stepChangesNothingUnlessRunning : Obligations.StepChangesNothingUnlessRunning := by
  rintro s (hhalted | hfaulted)
  · exact step_of_statusOf_ne_running (by simp [hhalted])
  · exact step_of_statusOf_ne_running (by simp [hfaulted])

end Sys2Proof
end

section
/-! The completion of an instruction (spec/40_step_datapath.md R70; spec/41_data_ops.md R90 to R93): once the action is
known to apply an effect to the machine with its operands ready, the common datapath leaves all that `Completed` says,
in either configuration. -/

namespace Sys2Proof

/-! ### The instruction an opcode field selects -/

theorem decode16_of_opcodeField {i : Instr} (h : i.cfg = .cfg16) {iw : Word 16} (hfields : i.fields = fields16 iw)
    (hop : opcodeField16 iw = BitVec.ofNat 8 i.opcode) : decode16 iw = i := by
  rw [decode16, ← hfields, select16_of_opcode h (by rw [hop, toNat_ofNat_opcode16 h])]

theorem decode8_of_opcodeField {i : Instr} (h : i.cfg = .cfg8) {iw : Word 8} (hfields : i.fields = fields8 iw)
    (hop : opcodeField8 iw = BitVec.ofNat 4 i.opcode) : decode8 iw = i := by
  rw [decode8, ← hfields, select8_of_opcode h (by rw [hop, toNat_ofNat_opcode8 h])]

end Sys2Proof

namespace Sys2Proof.Claims

open Sys2Proof.Machine

variable {w : Nat}

/-! ### From the effect of the action to the completed instruction -/

/-- The machine `m` with the effect `e` of an opcode's action (action 6) on it. -/
def Effect.applyTo (e : Effect w) (m : Mach w) : Mach w :=
  { m with
    pc := e.pc
    out := e.out
    halted := e.halted
    outStream := m.outStream ++ e.bytes
    events := m.events ++ e.bytes.map Event.emit }

/-- The action of instruction `i`, with its operands ready, has effect `e`. -/
def ActsAs (i : Instr) (m : Mach w) (e : Effect w) : Prop :=
  instrAct i (m.ready i.fields) = e.applyTo (m.ready i.fields)

theorem ActsAs.completed_out {i : Instr} {m : Mach w} {e : Effect w} (h : ActsAs i m e) :
    (m.completed i).out = e.out := by
  rw [Mach.completed_out, h, Effect.applyTo]

theorem ActsAs.completed_wordAt {i : Instr} {m : Mach w} {e : Effect w} (h : ActsAs i m e) (hm : m.mem.wf)
    (a : Word w) : (m.completed i).wordAt a =
      if i.fields.writeAddr = true ∧ a = m.writeAddrWord then e.out else m.wordAt a := by
  split_ifs with ha
  · obtain ⟨hflag, rfl⟩ := ha
    rw [Mach.completed_wordAt_writeAddrWord hm hflag, h.completed_out]
  · exact Mach.completed_wordAt hm ha

/-- The bytes emitted come after the reads and before the write-back (R43). -/
theorem ActsAs.completed_events {i : Instr} {m : Mach w} {e : Effect w} (h : ActsAs i m e) :
    (m.completed i).events = m.events ++ m.streamReads i.fields.operandWords ++ m.derefReads i.fields
      ++ e.bytes.map Event.emit ++ (if i.fields.writeAddr then [Event.write m.writeAddrWord e.out] else []) := by
  rw [Mach.completed, h, Mach.writeBack_eq]
  cases i.fields.writeAddr <;> rfl

theorem ActsAs.completed {i : Instr} {m : Mach w} {e : Effect w} (h : ActsAs i m e) (hm : m.mem.wf) :
    Completed i.fields m (m.completed i) e where
  pc := by rw [Mach.completed_pc, h, Effect.applyTo]
  in0 := m.completed_in0 i
  in1 := m.completed_in1 i
  in2 := m.completed_in2 i
  out := h.completed_out
  halted := by rw [Mach.completed_halted, h, Effect.applyTo]
  fault := m.completed_fault i
  outStream := by rw [Mach.completed_outStream, h, Effect.applyTo, Mach.ready_outStream]
  memory := h.completed_wordAt hm
  draws := m.completed_draws i
  events := h.completed_events

/-- An instruction of the common datapath whose operand words fit, in either configuration. -/
theorem exec_completes {wrap : Mach w → State} {i : Instr} {e : Mach w → Effect w}
    (hexec : ∀ m, exec i (wrap m) = runOutcome wrap (m.general i.fields (instrAct i)))
    (hact : ∀ m, ActsAs i m (e m)) (m : Mach w) (hm : m.mem.wf) (hfits : m.Fits i.fields) :
    ∃ t, exec i (wrap m) = .next (wrap t) ∧ Completed i.fields m t (e m) := by
  refine ⟨m.completed i, ?_, (hact m).completed hm⟩
  rw [hexec, Mach.general_fits hfits, Mach.completed, runOutcome]

theorem completes16_of_actsAs {i : Instr} (h : i.cfg = .cfg16) {e : Mach 16 → Effect 16}
    (hact : ∀ m, ActsAs i m (e m)) : Completes16 i e :=
  exec_completes (exec_of16 h) hact

theorem completes8_of_actsAs {i : Instr} (h : i.cfg = .cfg8) (hh : ∀ f, i ≠ .halt8 f) {e : Mach 8 → Effect 8}
    (hact : ∀ m, ActsAs i m (e m)) : Completes8 i e :=
  exec_completes (exec_of8 h hh) hact

/-! ### The effects of the data instructions -/

/-- No action is the effect of `NONE` (R90, R93). -/
theorem actsAs_none {i : Instr} (hact : instrAct (w := w) i = Mach.actNone) (m : Mach w) :
    ActsAs i m (noneEffect i.fields m) := by
  simp [ActsAs, hact, Mach.actNone, Effect.applyTo, noneEffect, Mach.ready]

theorem actsAs_copy {i : Instr} (hact : instrAct (w := w) i = Mach.actCopy) (m : Mach w) :
    ActsAs i m (copyEffect i.fields m) := by
  simp [ActsAs, hact, Mach.actCopy, Effect.applyTo, copyEffect, noneEffect, Mach.setOut, Mach.ready]

/-- The adder of the model is the sum mod `2^W` (R92, R94). -/
theorem addWrap_eq_ofNat_mod (a b : Word w) : addWrap a b = BitVec.ofNat w ((a.toNat + b.toNat) % 2 ^ w) := by
  refine BitVec.eq_of_toNat_eq ?_
  rw [addWrap, BitVec.toNat_ofNat, BitVec.toNat_ofNat, Nat.mod_mod]

theorem actsAs_add {i : Instr} (hact : instrAct (w := w) i = Mach.actAdd) (m : Mach w) :
    ActsAs i m (addEffect i.fields m) := by
  simp [ActsAs, hact, Mach.actAdd, addWrap_eq_ofNat_mod, Effect.applyTo, addEffect, noneEffect, Mach.setOut, Mach.ready]

end Sys2Proof.Claims

namespace Sys2Proof

open Sys2Proof.Machine Sys2Proof.Claims

/-- Settles O27: opcode 0 selects `NONE`, whose action does nothing. -/
theorem noneCompletes : Obligations.NoneCompletes :=
  ⟨fun _ => decode16_of_opcodeField (i := .none16 _) rfl rfl, fun _ => decode8_of_opcodeField (i := .none8 _) rfl rfl,
    fun _ => ⟨completes16_of_actsAs rfl (actsAs_none rfl), completes8_of_actsAs rfl (by simp) (actsAs_none rfl)⟩⟩

/-- Settles O28: opcode 1 selects `COPY`, whose action sets `out` to operand 0. -/
theorem copyPutsOperandZeroInOut : Obligations.CopyPutsOperandZeroInOut :=
  ⟨fun _ => decode16_of_opcodeField (i := .copy16 _) rfl rfl, fun _ => decode8_of_opcodeField (i := .copy8 _) rfl rfl,
    fun _ => ⟨completes16_of_actsAs rfl (actsAs_copy rfl), completes8_of_actsAs rfl (by simp) (actsAs_copy rfl)⟩⟩

/-- Settles O29: opcode 2 selects `ADD`, whose adder is the sum mod `2^W`. -/
theorem addPutsWrappedSumInOut : Obligations.AddPutsWrappedSumInOut :=
  ⟨fun _ => decode16_of_opcodeField (i := .add16 _) rfl rfl, fun _ => decode8_of_opcodeField (i := .add8 _) rfl rfl,
    fun _ => ⟨completes16_of_actsAs rfl (actsAs_add rfl), completes8_of_actsAs rfl (by simp) (actsAs_add rfl)⟩⟩

end Sys2Proof
end

section
/-! The unassigned opcodes (spec/41_data_ops.md R93): the meaning of an instruction depends on its fields and its action
alone, and theirs is the action of `NONE`. -/

namespace Sys2Proof.Machine

variable {w : Nat}

theorem instrAct_of_six_le_opcode {i : Instr} (h : 6 ≤ i.opcode) : instrAct (w := w) i = Mach.actNone := by
  obtain ⟨hop, -⟩ | ⟨hop, -⟩ | ⟨hop, -⟩ | ⟨hop, -⟩ | ⟨hop, -⟩ | ⟨-, hact⟩ := instrAct_cases (w := w) i
  case inr.inr.inr.inr.inr => exact hact
  all_goals omega

theorem exec_congr16 {i j : Instr} (hi : i.cfg = .cfg16) (hj : j.cfg = .cfg16) (hfields : i.fields = j.fields)
    (hact : instrAct (w := 16) i = instrAct j) (s : State) : exec i s = exec j s := by
  obtain ⟨m | m⟩ := s
  · rw [exec_of16 hi, exec_of16 hj, hfields, hact]
  · rw [exec_cfg16_of8 hi, exec_cfg16_of8 hj]

theorem exec_congr8 {i j : Instr} (hi : i.cfg = .cfg8) (hj : j.cfg = .cfg8) (hi5 : i.opcode ≠ 5) (hj5 : j.opcode ≠ 5)
    (hfields : i.fields = j.fields) (hact : instrAct (w := 8) i = instrAct j) (s : State) : exec i s = exec j s := by
  obtain ⟨m | m⟩ := s
  · rw [exec_cfg8_of16 hi, exec_cfg8_of16 hj]
  · rw [exec_of8 hi (ne_halt8_of_opcode_ne_five hi5), exec_of8 hj (ne_halt8_of_opcode_ne_five hj5), hfields, hact]

theorem exec_decode16_unassigned {iw : Word 16} (h : 6 ≤ (opcodeField16 iw).toNat) (s : State) :
    exec (decode16 iw) s = exec (.none16 (fields16 iw)) s := by
  have hop : 6 ≤ (decode16 iw).opcode := h.trans_eq (select16_opcode _ _).symm
  exact exec_congr16 (j := .none16 _) (decode16_cfg iw) rfl (decode16_fields iw) (instrAct_of_six_le_opcode hop) s

theorem exec_decode8_unassigned {iw : Word 8} (h : 6 ≤ (opcodeField8 iw).toNat) (s : State) :
    exec (decode8 iw) s = exec (.none8 (fields8 iw)) s := by
  have hop : 6 ≤ (decode8 iw).opcode := h.trans_eq (select8_opcode _ _).symm
  exact exec_congr8 (j := .none8 _) (decode8_cfg iw) rfl (by omega) (by simp [Instr.opcode]) (decode8_fields iw)
    (instrAct_of_six_le_opcode hop) s

end Sys2Proof.Machine

namespace Sys2Proof

open Sys2Proof.Machine Sys2Proof.Claims

/-- Settles O30: an opcode from 6 up has no action, and each of the eight constructors completes as `NONE` does. -/
theorem unassignedIsExactlyNone : Obligations.UnassignedIsExactlyNone :=
  ⟨fun _ => exec_decode16_unassigned, fun _ => exec_decode8_unassigned, fun _ =>
    ⟨fun _ => completes16_of_actsAs rfl (actsAs_none rfl), fun _ => completes16_of_actsAs rfl (actsAs_none rfl),
      fun _ => completes16_of_actsAs rfl (actsAs_none rfl), fun _ => completes16_of_actsAs rfl (actsAs_none rfl),
      fun _ => completes16_of_actsAs rfl (actsAs_none rfl), fun _ => completes16_of_actsAs rfl (actsAs_none rfl),
      fun _ => completes8_of_actsAs rfl (by simp) (actsAs_none rfl),
      fun _ => completes8_of_actsAs rfl (by simp) (actsAs_none rfl)⟩⟩

end Sys2Proof
end

section
/-! The control and output instructions (spec/42_control_io.md R100 to R103): the effects of their actions, and the step
that a `HALT` word without operand words or a `HALT` of `CFG8` comes to, which sets `halted` after the opcode fetch. -/

namespace Sys2Proof.Claims

open Sys2Proof.Machine

variable {w : Nat}

/-! ### The effects of the actions -/

theorem actsAs_jumpIfZero {i : Instr} (hact : instrAct (w := w) i = Mach.actJumpIfZero) (m : Mach w) :
    ActsAs i m (jumpEffect i.fields m) := by
  simp [ActsAs, hact, Mach.actJumpIfZero, isZero_iff, Effect.applyTo, jumpEffect, noneEffect, Mach.setPc, Mach.ready]

/-- Bits 7 to 0 of a word are the word mod 256 (R101). -/
theorem lowByte_eq_ofNat_mod (v : Word w) : lowByte v = BitVec.ofNat 8 (v.toNat % 256) := by
  refine BitVec.eq_of_toNat_eq ?_
  rw [lowByte, toNat_extractLsb'_eq_div_mod, BitVec.toNat_ofNat, pow_zero, Nat.div_one]
  exact (Nat.mod_mod _ _).symm

theorem actsAs_poke {i : Instr} (hact : instrAct (w := w) i = Mach.actPoke) (m : Mach w) :
    ActsAs i m (pokeEffect i.fields m) := by
  simp [ActsAs, hact, Mach.actPoke, lowByte_eq_ofNat_mod, Effect.applyTo, pokeEffect, noneEffect, Mach.emit, Mach.ready]

theorem actsAs_halt {i : Instr} (hact : instrAct (w := w) i = Mach.actHalt) (m : Mach w) :
    ActsAs i m (haltEffect i.fields m) := by
  simp [ActsAs, hact, Mach.actHalt, Effect.applyTo, haltEffect, noneEffect, Mach.setHalted, Mach.ready]

end Sys2Proof.Claims

namespace Sys2Proof.Machine

variable {w : Nat}

/-! ### A step that halts right after the opcode fetch -/

theorem Mach.fetchedOpcode_pc_toNat {m : Mach w} (hpc : m.pc.toNat + 1 < memSize w) :
    m.fetchedOpcode.pc.toNat = m.pc.toNat + 1 :=
  Mach.toNat_add_ofNat hpc

theorem Mach.setHalted_status {m : Mach w} (hfault : m.fault = none) : m.setHalted.status = .halted := by
  simp [Mach.status, hfault]

/-- The machine of either configuration: `hstep` is the law of its step, and the instruction at `pc` sets `halted` and
changes nothing else. -/
theorem step_of_runInstr_eq_setHalted {wrap : Mach w → State} {decode : Word w → Instr}
    (hstep : ∀ m, step (wrap m) = runOutcome wrap (m.runStep decode)) {m : Mach w} (hrun : m.status = .running)
    (hpc : m.pc.toNat + 1 < memSize w)
    (hhalt : m.fetchedOpcode.runInstr (decode (m.wordAt m.pc)) = .ok m.fetchedOpcode.setHalted) :
    step (wrap m) = .next (wrap m.fetchedOpcode.setHalted) := by
  rw [hstep, Mach.runStep_fits decode hrun hpc, hhalt, runOutcome]

theorem step_halts {wrap : Mach w → State} {decode : Word w → Instr}
    (hstep : ∀ m, step (wrap m) = runOutcome wrap (m.runStep decode)) {m : Mach w} (hrun : m.status = .running)
    (hpc : m.pc.toNat + 1 < memSize w)
    (hhalt : m.fetchedOpcode.runInstr (decode (m.wordAt m.pc)) = .ok m.fetchedOpcode.setHalted) :
    ∃ t, step (wrap m) = .next (wrap t) ∧ t.status = .halted ∧ t.mem = m.mem ∧ t.outStream = m.outStream ∧
      t.pc.toNat = m.pc.toNat + 1 :=
  ⟨m.fetchedOpcode.setHalted, step_of_runInstr_eq_setHalted hstep hrun hpc hhalt,
    Mach.setHalted_status (Mach.status_running_iff.mp hrun).2, rfl, rfl, Mach.fetchedOpcode_pc_toNat hpc⟩

/-! ### The `HALT` words -/

/-- The fields of a `HALT` of `CFG16` that is one word (R102): no operand words, and no result stored. -/
def bareFields : Fields := ⟨false, false, false, 0⟩

/-- With no operand words the common datapath comes to the action alone. -/
theorem Mach.general_bareFields (m : Mach w) (act : Mach w → Mach w) : m.general bareFields act = .ok (act m) := rfl

theorem Mach.runInstr_bareHalt16 (m : Mach w) : m.runInstr (.halt16 bareFields) = .ok m.setHalted := by
  rw [Mach.runInstr_of_ne_halt8 (ne_halt8_of_cfg16 rfl)]
  exact m.general_bareFields Mach.actHalt

theorem decode8_of_opcodeField_five {iw : Word 8} : opcodeField8 iw = 5#4 → decode8 iw = .halt8 (fields8 iw) :=
  decode8_of_opcodeField (i := .halt8 _) rfl rfl

/-- Whatever the fields of the word say (R103). -/
theorem Mach.runInstr_decode8_halt (m : Mach 8) {iw : Word 8} (hop : opcodeField8 iw = 5#4) :
    m.runInstr (decode8 iw) = .ok m.setHalted := by
  rw [decode8_of_opcodeField_five hop, Mach.runInstr_halt8]

end Sys2Proof.Machine

namespace Sys2Proof

open Sys2Proof.Machine Sys2Proof.Claims

/-- Settles O31: opcode 3 selects `JUMP_IF_ZERO`, whose action sets `pc` by its test of operand 1. -/
theorem jumpIfZeroSetsPc : Obligations.JumpIfZeroSetsPc :=
  ⟨fun _ => decode16_of_opcodeField (i := .jumpIfZero16 _) rfl rfl,
    fun _ => decode8_of_opcodeField (i := .jumpIfZero8 _) rfl rfl,
    fun _ => ⟨completes16_of_actsAs rfl (actsAs_jumpIfZero rfl),
      completes8_of_actsAs rfl (by simp) (actsAs_jumpIfZero rfl)⟩⟩

/-- Settles O32: opcode 4 selects `POKE`, whose action emits the low byte of operand 1. -/
theorem pokeEmitsLowByte : Obligations.PokeEmitsLowByte :=
  ⟨fun _ => decode16_of_opcodeField (i := .poke16 _) rfl rfl, fun _ => decode8_of_opcodeField (i := .poke8 _) rfl rfl,
    fun _ => ⟨completes16_of_actsAs rfl (actsAs_poke rfl), completes8_of_actsAs rfl (by simp) (actsAs_poke rfl)⟩⟩

/-- Settles O33: opcode 5 selects `HALT`, which sets `halted` in the common datapath, after the fetches that can
overrun. -/
theorem haltOfCfg16SetsHalted : Obligations.HaltOfCfg16SetsHalted := by
  refine ⟨fun _ => decode16_of_opcodeField (i := .halt16 _) rfl rfl,
    fun _ => completes16_of_actsAs rfl (actsAs_halt rfl), fun f m hfits => ?_⟩
  obtain ⟨t, hfault, hleaves, -⟩ := exec_of_not_fits (exec_of16 (i := .halt16 f) rfl m) hfits
  exact ⟨t, hfault, hleaves.halted⟩

/-- Settles O34: the instruction sets `halted` alone, so its step is the opcode fetch, which faults at the last address
before `halted` is set. -/
theorem haltOfCfg8ReturnsAtOnce : Obligations.HaltOfCfg8ReturnsAtOnce := by
  refine ⟨fun _ => decode8_of_opcodeField_five, exec_halt8, fun m hrun hpc hop => ?completes,
    fun m hrun hpc _ => ?overruns⟩
  case completes =>
    exact ⟨m.fetchedOpcode.setHalted,
      step_of_runInstr_eq_setHalted step_of8 hrun hpc (m.fetchedOpcode.runInstr_decode8_halt hop), rfl,
      Mach.fetchedOpcode_pc_toNat hpc, rfl, rfl, rfl⟩
  case overruns =>
    obtain ⟨t, hfault, hleaves, -⟩ := Mach.request_at_last_address .of8 decode8 hrun hpc
    exact ⟨t, hfault, hleaves.halted.trans (Mach.status_running_iff.mp hrun).1⟩

theorem decode16_halt : decode16 0x0005#16 = .halt16 bareFields := by decide

/-- Settles O35: the `CFG16` word has no operand words, and the `CFG8` word is the early return. -/
theorem haltWordHaltsInOneStep : Obligations.HaltWordHaltsInOneStep :=
  ⟨fun _ hrun hpc hword => step_halts step_of16 hrun hpc (by rw [hword, decode16_halt, Mach.runInstr_bareHalt16]),
    fun _ hrun hpc hword => step_halts step_of8 hrun hpc (Mach.runInstr_decode8_halt _ (by rw [hword]; decide))⟩

end Sys2Proof
end

section
/-! A step that faults (spec/60_exceptions.md R110 to R113): its run overran at the opcode word or at an operand word, so
it has only read the words of the instruction at `pc` in order, the last of them at the last address. -/

namespace Sys2Proof.Machine

open Sys2Proof.Claims

variable {w : Nat}

/-! ### Inversion -/

theorem Mach.runInstr_eq_error {m : Mach w} {i : Instr} {e : Overrun w × Mach w} (h : m.runInstr i = .error e) :
    (∀ f, i ≠ .halt8 f) ∧ ¬ m.Fits i.fields ∧ e = m.overrun := by
  obtain ⟨f, -, hr⟩ | ⟨-, -, hr⟩ | ⟨hne, hfits, hr⟩ := m.runInstr_cases i <;> rw [hr] at h <;> cases h
  exact ⟨hne, hfits, rfl⟩

/-- The reads of an instruction's words are that of the opcode word, then those of the words that follow it (R43). -/
theorem Mach.streamReads_succ_eq_cons (m : Mach w) (n : Nat) :
    m.streamReads (n + 1) = .read m.pc (m.wordAt m.pc) :: m.fetchedOpcode.streamReads n := by
  induction n with
  | zero => simp [Mach.streamReads, Mach.streamWord]
  | succ n ih =>
    have haddr : m.fetchedOpcode.pc + BitVec.ofNat w n = m.pc + BitVec.ofNat w (n + 1) := by
      rw [Nat.add_comm n, BitVec.ofNat_add, ← BitVec.add_assoc]
      rfl
    rw [Mach.streamReads, ih, Mach.streamReads, m.fetchedOpcode_streamWord, haddr, List.cons_append]
    rfl

/-- What a machine `n` is at which a step of `m` overruns, when an instruction of `length` words lies at the `pc` of
`m`: one of these words lies at the last address, and all that has happened since the step began is the reads of the
words up to it (R73, R113). -/
structure OverrunsAt (length : Nat) (m n : Mach w) : Prop where
  wordAtLast : memSize w ≤ m.pc.toNat + length
  mem : n.mem = m.mem
  outStream : n.outStream = m.outStream
  halted : n.halted = m.halted
  events : n.events = m.events ++ m.streamReads (memSize w - m.pc.toNat)

/-- The fetch of the opcode word overruns: every instruction has an opcode word. -/
theorem overrunsAt_opcode {m : Mach w} {length : Nat} (hpc : ¬ m.pc.toNat + 1 < memSize w) (hlength : 1 ≤ length) :
    OverrunsAt length m (m.beginStep.log (.read m.pc (m.wordAt m.pc))) where
  wordAtLast := by omega
  mem := rfl
  outStream := rfl
  halted := rfl
  events := by
    have hreads : memSize w - m.pc.toNat = 1 := by
      have hlt : m.pc.toNat < memSize w := m.pc.isLt
      omega
    rw [hreads, m.streamReads_succ_eq_cons 0]
    rfl

/-- The fetch of an operand word overruns. -/
theorem overrunsAt_operand {m : Mach w} {f : Fields} (hpc : m.pc.toNat + 1 < memSize w)
    (hfits : ¬ m.fetchedOpcode.Fits f) :
    OverrunsAt (1 + f.operandWords) m { m.fetchedOpcode with
      events := m.fetchedOpcode.events ++ m.fetchedOpcode.streamReads (memSize w - m.fetchedOpcode.pc.toNat) } where
  wordAtLast := by
    rw [Mach.Fits, Mach.fetchedOpcode_pc_toNat hpc] at hfits
    omega
  mem := rfl
  outStream := rfl
  halted := rfl
  events := by
    have hreads : memSize w - m.pc.toNat = memSize w - (m.pc.toNat + 1) + 1 := by omega
    rw [hreads, m.streamReads_succ_eq_cons, Mach.fetchedOpcode_pc_toNat hpc, Mach.fetchedOpcode_events,
      List.append_assoc]
    rfl

theorem one_le_length (i : Instr) : 1 ≤ i.length := by
  cases i with
  | halt8 f => exact le_rfl
  | _ => exact Nat.le_add_right 1 _

/-- What a faulting step can have done. -/
theorem Mach.runStep_eq_error {m : Mach w} {decode : Word w → Instr} {e : Overrun w × Mach w}
    (h : m.runStep decode = .error e) :
    ∃ n, OverrunsAt (decode (m.wordAt m.pc)).length m n ∧
      e = n.raiseOverrun .pcAdvance (BitVec.ofNat (w + 1) (memSize w)) := by
  by_cases hrun : m.status = .running
  · by_cases hpc : m.pc.toNat + 1 < memSize w
    · rw [Mach.runStep_fits decode hrun hpc] at h
      obtain ⟨hne, hfits, rfl⟩ := Mach.runInstr_eq_error h
      rw [length_of_ne_halt8 hne]
      exact ⟨_, overrunsAt_operand hpc hfits, rfl⟩
    · rw [Mach.runStep_overrun decode hrun hpc] at h
      cases h
      exact ⟨_, overrunsAt_opcode hpc (one_le_length _), rfl⟩
  · rw [Mach.runStep_not_running decode hrun] at h
    cases h

/-! ### What the Faulted state is -/

section

variable {length : Nat} {m n : Mach w} (h : OverrunsAt length m n)

include h

theorem OverrunsAt.faultLeaves :
    FaultLeaves m (n.raiseOverrun .pcAdvance (BitVec.ofNat (w + 1) (memSize w))).2 .pcAdvance (memSize w) := by
  obtain ⟨k, hreads, hlast⟩ := m.streamReads_to_last_address
  have hevents := h.events
  rw [hreads, ← List.append_assoc] at hevents
  exact faultLeaves_raiseOverrun h.mem h.outStream h.halted hevents (writeCount_streamReads m k)
    (emitted_streamReads m k) hlast

theorem OverrunsAt.faultsFetchingLastWord :
    FaultsFetchingLastWord length m (n.raiseOverrun .pcAdvance (BitVec.ofNat (w + 1) (memSize w))).2 where
  wordAtLast := h.wordAtLast
  events := h.events
  lastRead := by
    obtain ⟨k, hreads, hlast⟩ := m.streamReads_to_last_address
    exact ⟨_, _, _, hreads, hlast⟩

end

/-- A faulting step of the machine of either configuration: `hstep` is the law of its step. -/
theorem step_eq_fault {wrap : Mach w → State} {decode : Word w → Instr}
    (hstep : ∀ m, step (wrap m) = runOutcome wrap (m.runStep decode)) {m : Mach w} {kind : OverrunKind} {addr : Nat}
    {t : State} (h : step (wrap m) = .fault (.addressOverrun kind addr t)) :
    kind = .pcAdvance ∧ addr = memSize w ∧ ∃ u, t = wrap u ∧ FaultLeaves m u .pcAdvance (memSize w) ∧
      FaultsFetchingLastWord (decode (m.wordAt m.pc)).length m u := by
  obtain ⟨e, hr, hkind, haddr, ht⟩ := runOutcome_eq_fault_iff.mp ((hstep m).symm.trans h)
  obtain ⟨n, hn, rfl⟩ := Mach.runStep_eq_error hr
  exact ⟨hkind.symm, haddr.symm.trans (toNat_ofNat_memSize w), _, ht.symm, hn.faultLeaves, hn.faultsFetchingLastWord⟩

end Sys2Proof.Machine

namespace Sys2Proof

open Sys2Proof.Machine Sys2Proof.Claims

/-- Settles O16: a fault is an overrun at the opcode word or at an operand word of the instruction at `pc`. -/
theorem onlyPcAdvanceIsRaised : Obligations.OnlyPcAdvanceIsRaised := by
  refine ⟨fun m kind addr t h => ?cfg16, fun m kind addr t h => ?cfg8⟩
  case cfg16 =>
    obtain ⟨hkind, haddr, u, ht, -, hfetch⟩ := step_eq_fault step_of16 h
    exact ⟨hkind, haddr, u, ht, hfetch⟩
  case cfg8 =>
    obtain ⟨hkind, haddr, u, ht, -, hfetch⟩ := step_eq_fault step_of8 h
    exact ⟨hkind, haddr, u, ht, hfetch⟩

/-- Settles O17: until it overruns, a step has only read. -/
theorem faultingStepHasNoEffect : Obligations.FaultingStepHasNoEffect := by
  rintro ⟨m | m⟩ kind addr t h
  case cfg16 =>
    obtain ⟨rfl, rfl, u, rfl, hleaves, -⟩ := step_eq_fault step_of16 h
    exact ⟨rfl, hleaves⟩
  case cfg8 =>
    obtain ⟨rfl, rfl, u, rfl, hleaves, -⟩ := step_eq_fault step_of8 h
    exact ⟨rfl, hleaves⟩

end Sys2Proof
end

section
/-! The end of a run (spec/70_reset_and_hazards.md R134). A fault answers every longer run, since a run stops there, and
a halted state answers every longer run, since it is terminal. -/

namespace Sys2Proof

open Sys2Proof.Machine

variable {s t : State} {j k : Nat} {r : Fault}

theorem run_succ_of_step_eq_next (h : step s = .next t) (n : Nat) : core.run (n + 1) s = core.run n t := by
  have hstep : core.step s = .next t := h
  simp only [Host.Core.run, hstep]

theorem run_succ_of_step_eq_fault (h : step s = .fault r) (n : Nat) : core.run (n + 1) s = .fault r := by
  have hstep : core.step s = .fault r := h
  simp only [Host.Core.run, hstep]

/-- A run of `k + n` steps whose first `k` complete is the run of `n` steps from where they end. -/
theorem run_add_of_run_eq_next (h : core.run k s = .next t) (n : Nat) : core.run (k + n) s = core.run n t := by
  induction k generalizing s with
  | zero =>
    cases h
    rw [Nat.zero_add]
  | succ k ih =>
    rw [Nat.succ_add]
    cases hstep : step s with
    | next u =>
      rw [run_succ_of_step_eq_next hstep] at h ⊢
      exact ih h
    | fault r =>
      rw [run_succ_of_step_eq_fault hstep] at h
      cases h
    | refused reason => exact absurd hstep (stepNeverRefuses s reason)

/-- The fault that ends a run answers every run that goes past its step. -/
theorem EndsInFault.run_eq_fault (h : EndsInFault s j r) (hlt : j < k) : core.run k s = .fault r := by
  obtain ⟨t, hrun, hstep⟩ := h
  obtain ⟨n, rfl⟩ := Nat.exists_eq_add_of_lt hlt
  rw [Nat.add_assoc, run_add_of_run_eq_next hrun]
  exact run_succ_of_step_eq_fault hstep n

/-- The halted state that ends a run answers every longer run. -/
theorem EndsNormally.run_add_eq_next (h : EndsNormally s k t) (n : Nat) : core.run (k + n) s = .next t := by
  obtain ⟨hrun, hhalted, -⟩ := h
  rw [run_add_of_run_eq_next hrun]
  exact haltedAndFaultedAreTerminal t n (.inl hhalted)

/-! ### No end lies past another -/

theorem EndsNormally.le {k' : Nat} {t' : State} (h : EndsNormally s k t) (h' : EndsNormally s k' t') : k ≤ k' := by
  obtain ⟨-, -, hfirst⟩ := h
  obtain ⟨hrun, hhalted, -⟩ := h'
  exact Nat.le_of_not_lt fun hlt => Bool.false_ne_true ((hfirst k' t' hlt hrun).symm.trans hhalted)

theorem EndsInFault.le {j' : Nat} {r' : Fault} (h : EndsInFault s j r) (h' : EndsInFault s j' r') : j ≤ j' := by
  obtain ⟨t, hrun, -⟩ := h
  refine Nat.le_of_not_lt fun hlt => ?_
  have hfault := h'.run_eq_fault hlt
  rw [hrun] at hfault
  cases hfault

theorem EndsNormally.not_endsInFault (h : EndsNormally s k t) : ¬ EndsInFault s j r := by
  intro hfault
  have hnext := h.run_add_eq_next (j + 1)
  rw [hfault.run_eq_fault (by omega)] at hnext
  cases hnext

/-- Settles O43: of two ends of one kind neither lies past the other, and a run answers one outcome; after ends of both
kinds a long enough run would answer both the halted state and the fault. -/
theorem runEndsAtMostOnce : Obligations.RunEndsAtMostOnce := by
  refine ⟨fun s k t k' t' h h' => ?normal, fun s j r j' r' h h' => ?fault, fun s k t j r h => h.not_endsInFault⟩
  case normal =>
    obtain rfl := Nat.le_antisymm (h.le h') (h'.le h)
    exact ⟨rfl, Host.Outcome.next.inj ((h.run_add_eq_next 0).symm.trans (h'.run_add_eq_next 0))⟩
  case fault =>
    obtain rfl := Nat.le_antisymm (h.le h') (h'.le h)
    have hlt := Nat.lt_succ_self j
    exact ⟨rfl, Host.Outcome.fault.inj ((h.run_eq_fault hlt).symm.trans (h'.run_eq_fault hlt))⟩

/-! ### Nothing but a fault stops a run -/

theorem SafeRun.not_endsInFault (h : SafeRun s) : ¬ EndsInFault s k r := by
  intro hfault
  obtain ⟨t, hrun⟩ := h (k + 1)
  rw [hfault.run_eq_fault (Nat.lt_succ_self k)] at hrun
  cases hrun

/-- By induction on the number of steps: no step is refused, so the next one completes unless it faults. -/
theorem safeRun_of_not_endsInFault (h : ∀ k r, ¬ EndsInFault s k r) : SafeRun s := by
  intro k
  induction k with
  | zero => exact ⟨s, rfl⟩
  | succ k ih =>
    obtain ⟨t, hrun⟩ := ih
    cases hstep : step t with
    | next u => exact ⟨u, (run_add_of_run_eq_next hrun 1).trans (run_succ_of_step_eq_next hstep 0)⟩
    | fault r => exact absurd ⟨t, hrun, hstep⟩ (h k r)
    | refused reason => exact absurd hstep (stepNeverRefuses t reason)

/-- Settles O44: a fault stops every longer run, and no step is refused, so nothing else stops one. -/
theorem runIsSafeUnlessItFaults : Obligations.RunIsSafeUnlessItFaults :=
  fun _ => ⟨fun h _ _ => h.not_endsInFault, safeRun_of_not_endsInFault⟩

end Sys2Proof
end

section
/-! The decoder on words of the tables (spec/95_test_vectors.md 2.1, 2.2; spec/30_encoding.md R51, R52). -/

namespace Sys2Proof

/-- Settles O1: each word holds the instruction's flags and `argc` in their bits and its opcode in the opcode field, and
the reserved bits of `0xE005` are in none of these. -/
theorem decodeReadsSpecWords : Obligations.DecodeReadsSpecWords := by
  refine ⟨?copy16, ?add16, ?jumpIfZero16, ?halt16, ?opcode7, ?opcode255, ?copy8, ?add8, ?poke8, ?halt8, ?opcode6,
    ?opcode15⟩
  case copy16 | add16 | jumpIfZero16 | halt16 | opcode7 | opcode255 => exact decode16_of_opcodeField rfl rfl rfl
  case copy8 | add8 | poke8 | halt8 | opcode6 | opcode15 => exact decode8_of_opcodeField rfl rfl rfl

end Sys2Proof
end
